-- ==== Sys2Proof/Word.lean ====
section
/-! DEFINITION. The words of the block: the widths of 00_scope.md R5 as types, and a string operand or result
(20_memory.md R52) as a list of bytes that carries the bound on its length. -/

namespace Sys2Proof

/-- A character, `CHARW` = 8 bits (R5, R8). -/
abbrev Byte := BitVec 8

/-- A command word, `CMDW` = 8 bits (R5, R70). -/
abbrev CommandWord := BitVec 8

/-- A timestamp field and the clock port, `TSF` = `NOWW` = 48 bits (R5). -/
abbrev Millis := BitVec 48

/-- A random field and a word of the entropy port, `RNDF` = `ENTW` = 80 bits (R5). -/
abbrev Rand := BitVec 80

/-- A ULID value, `VALW` = 128 bits (R5, R78). -/
abbrev Value := BitVec 128

/-- The `TS` operand and result field, `TSW` = 64 bits, read as two's complement (R5, R22). -/
abbrev TsField := BitVec 64

/-- The `RND` operand and result field, `RNDW` = 128 bits, unsigned (R5, R22). -/
abbrev RndField := BitVec 128

/-- The `NUM` operand and result field, `NUMW` = 180 bits, unsigned (R5, R22). -/
abbrev NumField := BitVec 180

/-- The `ERR` result field, `ERRW` = 4 bits (R5, R23). -/
abbrev ErrCode := BitVec 4

/-- The largest length of a string operand or result, `STRMAX` (R5, R52). -/
abbrev strMax : Nat := 36

/-- A string operand or result (R8, R52): its characters, index 0 the leftmost, with its length, 0 to `STRMAX`.
A longer string cannot be presented to the block (R22), so the type has no such value. -/
structure Text where
  chars : List Byte
  length_le : chars.length ≤ strMax
deriving DecidableEq, Repr

/-- The empty string, a legal operand (R22). -/
def Text.empty : Text := ⟨[], Nat.zero_le _⟩

/-- The string made of the first `STRMAX` characters of a list: all of it, where it is short enough. -/
def Text.ofList (cs : List Byte) : Text := ⟨cs.take strMax, List.length_take_le _ _⟩

end Sys2Proof
end

