-- ==== Sys2Proof/Config.lean ====
section
/-! DEFINITION. The implementation parameters of 00_scope.md R5: the policies a block of this kind may differ in, as
types, and what this hardware fixes each of them to. The functions that depend on one take it as an argument; the
machine gives them the constants below. -/

namespace Sys2Proof

/-- `MONO_OVF`: what a monotonic step does when the random field is exhausted (R5, decision D10). -/
inductive MonoOvf where
  | fail      -- policy (b): the command fails with MonotonicOverflow
  | advance   -- policy (a): one virtual millisecond on, with a fresh entropy word
deriving DecidableEq, Repr

/-- `UUID_CASE`: the letter case of the hex digits TOUUID writes (R5, R81, decision D15). -/
inductive UuidCase where
  | lower
  | upper
deriving DecidableEq, Repr

namespace Config

/-- `MONO_OVF` = `fail` (R5). -/
def monoOvf : MonoOvf := .fail

/-- `UUID_CASE` = `lower` (R5). -/
def uuidCase : UuidCase := .lower

/-- `HAS_UUID` = true (R5): unit UU and its two commands are present. -/
def hasUuid : Bool := true

/-- `MSR_RESET` = (0, 0) (R5, R30): the timestamp and the random field of the register after reset. -/
def msrReset : Millis × Rand := (0, 0)

/-- `TSMAX` = 2^48 - 1, the largest timestamp (R5). -/
abbrev tsMax : Nat := 2 ^ 48 - 1

/-- `RNDMAX` = 2^80 - 1, the largest random value (R5). -/
abbrev rndMax : Nat := 2 ^ 80 - 1

/-- `ULIDLEN`, the characters of a ULID string (R5). -/
abbrev ulidLen : Nat := 26

/-- `ENCCAP` = `ULIDLEN` × 5, the bits the encoder can render (R5). -/
abbrev encCap : Nat := 130

/-- `UUIDLEN`, the characters of UUID text with hyphens (R5). -/
abbrev uuidLen : Nat := 36

/-- `UUIDHEX`, the hex digits of UUID text (R5). -/
abbrev uuidHex : Nat := 32

end Config
end Sys2Proof
end

