-- ==== Sys2Proof/Syntax.lean ====
section
/-! DEFINITION. The fifteen commands, one constructor per row of spec/opcode_table.json (30_encoding.md R72), the six
units that execute them (00_scope.md R2) and their names (R72, R83). A command has no operands of its own: they travel
in the request fields (R70). -/

namespace Sys2Proof

/-- The six units of the block (R2). -/
inductive UnitName where
  | b32   -- Base32 codec
  | pk    -- bit packer
  | vl    -- validator
  | ms    -- monotonic sequence register and comparator
  | en    -- identifier engine
  | uu    -- UUID bridge, optional
deriving DecidableEq, Repr

/-- The commands (R72). -/
inductive Instr where
  | enc
  | dec
  | pack
  | unpack
  | chk
  | mono
  | gen
  | genm
  | gents
  | isvalid
  | xts
  | xrnd
  | norm
  | touuid
  | fromuuid
deriving DecidableEq, Repr

/-- The unit that executes a command (R71, R72). -/
def Instr.unit : Instr → UnitName
  | .enc => .b32
  | .dec => .b32
  | .pack => .pk
  | .unpack => .pk
  | .chk => .vl
  | .mono => .ms
  | .gen => .en
  | .genm => .en
  | .gents => .en
  | .isvalid => .en
  | .xts => .en
  | .xrnd => .en
  | .norm => .en
  | .touuid => .uu
  | .fromuuid => .uu

/-- The mnemonic of a command (R72). -/
def Instr.mnemonic : Instr → String
  | .enc => "ENC"
  | .dec => "DEC"
  | .pack => "PACK"
  | .unpack => "UNPACK"
  | .chk => "CHK"
  | .mono => "MONO"
  | .gen => "GEN"
  | .genm => "GENM"
  | .gents => "GENTS"
  | .isvalid => "ISVALID"
  | .xts => "XTS"
  | .xrnd => "XRND"
  | .norm => "NORM"
  | .touuid => "TOUUID"
  | .fromuuid => "FROMUUID"

/-- The second names of R83, each of one command. -/
def Instr.secondNames : Instr → List String
  | .enc => ["encode_base32", "encode"]
  | .dec => ["decode_base32", "decode"]
  | .norm => ["PARSE"]
  | .pack => []
  | .unpack => []
  | .chk => []
  | .mono => []
  | .gen => []
  | .genm => []
  | .gents => []
  | .isvalid => []
  | .xts => []
  | .xrnd => []
  | .touuid => []
  | .fromuuid => []

end Sys2Proof
end

