-- ==== Sys2Proof/WellFormed.lean ====
section
/-! DEFINITION. When a command is one of the block's: the two commands of unit UU only where `HAS_UUID` holds
(30_encoding.md R73). A command has no operands, so there is nothing else to check in it; that a string operand has at
most 36 characters and an integer operand fits its field is in their types (10_state.md R22). -/

namespace Sys2Proof

/-- The command exists in a block with this value of `HAS_UUID` (R73). -/
def Instr.wellFormed (hasUuid : Bool) (i : Instr) : Bool :=
  match i.unit with
  | .uu => hasUuid
  | .b32 => true
  | .pk => true
  | .vl => true
  | .ms => true
  | .en => true

end Sys2Proof
end

