-- ==== Sys2Proof/Decode.lean ====
section
/-! DEFINITION. The decoder, total on all 256 command words and rejecting by name (30_encoding.md R72, R73), and the
encoder, written from the two fields of the word (R71). -/

namespace Sys2Proof

/-- Why a command word is illegal (R73). -/
inductive IllegalWord where
  /-- The word is not in the opcode map. -/
  | notInMap (w : CommandWord)
  /-- The word is one of unit UU's and `HAS_UUID` is false. -/
  | unitAbsent (i : Instr)
deriving DecidableEq, Repr

/-- What a command word reads as. -/
inductive Decoded where
  | instr (i : Instr)
  | illegal (why : IllegalWord)
deriving DecidableEq, Repr

/-- A row of the opcode map: the bits compared, their value, the command. -/
structure OpcodeRow where
  mask : CommandWord
  pattern : CommandWord
  instr : Instr
deriving DecidableEq, Repr

/-- The opcode map of R72; a decoder compares all eight bits. -/
def opcodeMap : List OpcodeRow :=
  [⟨0xFF, 0x10, .enc⟩, ⟨0xFF, 0x11, .dec⟩, ⟨0xFF, 0x20, .pack⟩, ⟨0xFF, 0x21, .unpack⟩, ⟨0xFF, 0x30, .chk⟩,
   ⟨0xFF, 0x40, .mono⟩, ⟨0xFF, 0x50, .gen⟩, ⟨0xFF, 0x51, .genm⟩, ⟨0xFF, 0x52, .gents⟩, ⟨0xFF, 0x53, .isvalid⟩,
   ⟨0xFF, 0x54, .xts⟩, ⟨0xFF, 0x55, .xrnd⟩, ⟨0xFF, 0x56, .norm⟩, ⟨0xFF, 0x60, .touuid⟩, ⟨0xFF, 0x61, .fromuuid⟩]

/-- The word matches the row. -/
def OpcodeRow.admits (r : OpcodeRow) (w : CommandWord) : Bool := w &&& r.mask == r.pattern

/-- What the opcode map gives for a word. -/
def lookupWord (w : CommandWord) : Option Instr := (opcodeMap.find? (·.admits w)).map (·.instr)

/-- The decoder (R72, R73). -/
def decode (hasUuid : Bool) (w : CommandWord) : Decoded :=
  match lookupWord w with
  | none => .illegal (.notInMap w)
  | some i => if i.wellFormed hasUuid then .instr i else .illegal (.unitAbsent i)

/-- The `UNIT` field of a unit's commands, `CMD[7:4]` (R71). -/
def UnitName.code : UnitName → BitVec 4
  | .b32 => 1
  | .pk => 2
  | .vl => 3
  | .ms => 4
  | .en => 5
  | .uu => 6

/-- The `FN` field, `CMD[3:0]`: the function within the unit (R71, R72). -/
def Instr.function : Instr → BitVec 4
  | .enc => 0
  | .dec => 1
  | .pack => 0
  | .unpack => 1
  | .chk => 0
  | .mono => 0
  | .gen => 0
  | .genm => 1
  | .gents => 2
  | .isvalid => 3
  | .xts => 4
  | .xrnd => 5
  | .norm => 6
  | .touuid => 0
  | .fromuuid => 1

/-- The encoder: `UNIT` in the high half of the word, `FN` in the low half (R71). -/
def encode (i : Instr) : CommandWord := i.unit.code ++ i.function

/-- The instruction the decoder reads from `nbits` bits `w`; every command is one 8-bit word (R74). -/
def decodeTableWord (nbits w : Nat) : Option Instr :=
  if w % 2 ^ nbits < 2 ^ 8 then
    match decode Config.hasUuid (BitVec.ofNat 8 (w % 2 ^ nbits)) with
    | .instr i => some i
    | .illegal _ => none
  else none

end Sys2Proof
end

