-- ==== Sys2Proof/Machine/State.lean ====
section
/-! DEFINITION. The state: the monotonic sequence register (10_state.md R20, R21), and, because a step of this package
is a function of the state alone, what crosses the boundary of the block (60_exceptions.md R228, R233): the command that
is being executed with the draws on offer, the exchanges completed since reset, and what the outside will do next. -/

namespace Sys2Proof.Machine

/-- The monotonic sequence register `MSR` (R21). -/
structure Msr where
  /-- `MSR.TS`, bits [127:80]. -/
  ts : Millis
  /-- `MSR.RND`, bits [79:0]. -/
  rnd : Rand
deriving DecidableEq, Repr

/-- A request: its six fields, presented together (R22). -/
structure Request where
  cmd : CommandWord
  ts : TsField
  rnd : RndField
  val : Value
  num : NumField
  str : Text
deriving DecidableEq, Repr

/-- A response: its seven fields, returned together (R23). DESIGN CHOICE, safe (log entry 5, V1 of
93_implementation_defined.md): a field to which the rules give no value is `none`. -/
structure Response where
  err : ErrCode
  b : Option Bool
  ts : Option TsField
  rnd : Option RndField
  val : Option Value
  num : Option NumField
  str : Option Text
deriving DecidableEq, Repr

/-- The draws a command takes (R11): `usedNOW` and `usedENT` of R233, each with the value taken. -/
structure Draws where
  now : Option Millis
  ent : Option Rand
deriving DecidableEq, Repr

/-- One accepted command with everything its step is given besides `MSR` (R233): the requester, the request `q`, and
the values `now` and `e` that the two ports offer while it executes. -/
structure Offer where
  who : Nat
  req : Request
  now : Millis
  ent : Rand
deriving DecidableEq, Repr

/-- One completed command: who issued it, the request, the draws it took and the response (R233). -/
structure Exchange where
  who : Nat
  req : Request
  draws : Draws
  rsp : Response
deriving DecidableEq, Repr

/-- What the outside does to the block (R228): a request that is accepted next, or reset. -/
inductive Move where
  | present (o : Offer)
  | reset
deriving DecidableEq, Repr

/-- The failure kinds and their absence (R221), as a response reports them. -/
inductive ErrKind where
  | none
  | invalidFormat
  | invalidCharacter
  | valueOverflow
  | invalidTimestamp
  | invalidUuid
  | monotonicOverflow
  | timestampOutOfRange
  | randomOutOfRange
  | illegalCommand
deriving DecidableEq, Repr

/-- Why the machine would stop. There is no such reason: "no stuck state, no hang, no refusal of a presentable request
and no outcome other than success or one of the nine failure kinds" (R233), and a failure is a response. -/
inductive Fault
deriving DecidableEq, Repr

/-- Why an instruction has no meaning. -/
inductive Refusal where
  /-- Raised by an arm of `exec` whose instruction is not modelled yet; safe. No arm raises it. -/
  | notModelled (mnemonic : String)
deriving DecidableEq, Repr

/-- The state of the machine. -/
structure State where
  /-- The block's only persistent state (R20, R21). -/
  msr : Msr
  /-- The command being executed, or, between commands, the last one: what the request fields and the ports carry. -/
  cur : Offer
  /-- The exchanges completed since the last reset, newest first: the observable result of the run (R233). -/
  trace : List Exchange
  /-- What the outside will do, in the order in which the block meets it (R57, R228). -/
  agenda : List Move
deriving DecidableEq, Repr

/-- Request fields at zero. DESIGN CHOICE, unsafe (log entry 2): they have no value before the first request (R252). -/
def Request.blank : Request := { cmd := 0, ts := 0, rnd := 0, val := 0, num := 0, str := Text.empty }

/-- Nothing presented yet. DESIGN CHOICE, unsafe (log entries 2, 3): the ports too are given the value zero. -/
def Offer.blank : Offer := { who := 0, req := Request.blank, now := 0, ent := 0 }

/-- `MSR` after reset (R30). -/
def Msr.reset : Msr := { ts := Config.msrReset.1, rnd := Config.msrReset.2 }

/-- The machine right after reset (R31, R250, R252): `MSR` at its reset value, no command in progress, no response, and
nothing presented. -/
def State.reset : State := { msr := Msr.reset, cur := Offer.blank, trace := [], agenda := [] }

end Sys2Proof.Machine
end

