-- ==== Sys2Proof/Machine/Flags.lean ====
section
/-! DEFINITION. The two result indications of the block (10_state.md R26): the code in `rsp.ERR` (60_exceptions.md R221)
and the boolean in `rsp.B`; and the two shapes of a response, success and failure (00_scope.md R10, R23). -/

namespace Sys2Proof.Machine

/-- The 4-bit code of a failure kind (R221); codes 10 to 15 are never produced. -/
def ErrKind.code : ErrKind → ErrCode
  | .none => 0
  | .invalidFormat => 1
  | .invalidCharacter => 2
  | .valueOverflow => 3
  | .invalidTimestamp => 4
  | .invalidUuid => 5
  | .monotonicOverflow => 6
  | .timestampOutOfRange => 7
  | .randomOutOfRange => 8
  | .illegalCommand => 9

/-- A response that carries a code and no result (R224: a failing command writes `rsp.ERR` and no other field). -/
def Response.code (k : ErrKind) : Response :=
  { err := k.code, b := none, ts := none, rnd := none, val := none, num := none, str := none }

/-- The response of a command that ends without `raise`, to which the command adds its results (R10). -/
def Response.ok : Response := Response.code .none

/-- The response of a predicate command: `rsp.B` is 1 exactly when the predicate holds (R26). -/
def Response.bool (p : Bool) : Response := { Response.ok with b := some p }

/-- The response of a command whose result is a string. -/
def Response.text (t : Text) : Response := { Response.ok with str := some t }

/-- The response of a command whose result is a number. -/
def Response.number (n : NumField) : Response := { Response.ok with num := some n }

/-- The response of a command whose result is a timestamp. -/
def Response.time (t : TsField) : Response := { Response.ok with ts := some t }

/-- The response of a command whose result is a random-field value. -/
def Response.random (r : RndField) : Response := { Response.ok with rnd := some r }

/-- The response of a command whose results are a timestamp and a random-field value. -/
def Response.fields (t : TsField) (r : RndField) : Response := { Response.ok with ts := some t, rnd := some r }

/-- The response of a command whose result is a 128-bit value. -/
def Response.value (v : Value) : Response := { Response.ok with val := some v }

end Sys2Proof.Machine
end

