-- ==== Sys2Proof/Machine/Ops.lean ====
section
/-! DEFINITION. The shared operations of a step: accepting a request (20_memory.md R56, R57), completing a command with
success or with a failure (00_scope.md R10, 60_exceptions.md R224), reset (70_reset_and_hazards.md R250) and an illegal
command word (R235). A failure is the block's only exception; there is nothing to return from (R225). -/

namespace Sys2Proof.Machine

/-- The outcome of a step of this machine. -/
abbrev Result := Host.Outcome State Fault Refusal

/-- No draw taken. -/
def Draws.nothing : Draws := { now := none, ent := none }

/-- The clock sampled, no entropy taken. -/
def Draws.clock (o : Offer) : Draws := { now := some o.now, ent := none }

/-- One word of entropy taken, the clock not sampled. -/
def Draws.entropy (o : Offer) : Draws := { now := none, ent := some o.ent }

/-- The clock sampled and one word of entropy taken. -/
def Draws.both (o : Offer) : Draws := { now := some o.now, ent := some o.ent }

/-- The completion of the current command: its writes of `MSR` and its response appear together (R9, R56), and the
response goes to the requester that issued it. -/
def State.finish (s : State) (m : Msr) (d : Draws) (r : Response) : State :=
  { s with msr := m, trace := { who := s.cur.who, req := s.cur.req, draws := d, rsp := r } :: s.trace }

/-- A command ends with success: `MSR` is `m`, the response is `r`. -/
def succeed (s : State) (m : Msr) (d : Draws) (r : Response) : Result := .next (s.finish m d r)

/-- `raise k` (R10, R224): `rsp.ERR` gets the code, no other response field has a value, `MSR` is unchanged and no entropy
is taken. `clock` is what the command sampled from `NOW` before it failed. -/
def raise (s : State) (k : ErrKind) (clock : Option Millis) : Result :=
  .next (s.finish s.msr { now := clock, ent := none } (Response.code k))

/-- Acceptance: all six request fields are sampled at one instant, with the ports as they stand (R56, R233). -/
def State.accept (s : State) (o : Offer) (rest : List Move) : State := { s with cur := o, agenda := rest }

/-- Reset (R250, R251): every field at its reset value; what the outside does afterwards is as it was. -/
def State.afterReset (rest : List Move) : State := { State.reset with agenda := rest }

/-- The command word of the accepted request. -/
def State.commandWord (s : State) : CommandWord := s.cur.req.cmd

/-- What the accepted command word reads as. -/
def State.decoded (s : State) : Decoded := decode Config.hasUuid s.commandWord

/-- An illegal command word: the command fails with `IllegalCommand` (R73, R235). -/
def execIllegal (s : State) : Result := raise s .illegalCommand none

/-- A request with the command word `w`, and the operands and draws that `cur` holds, put in front of what the outside
will do. -/
def State.withNextWord (s : State) (w : CommandWord) : State :=
  { s with agenda := .present { s.cur with req := { s.cur.req with cmd := w } } :: s.agenda }

end Sys2Proof.Machine
end

