-- ==== Sys2Proof/Machine/Operands.lean ====
section
/-! DEFINITION. The operand forms of the block: the request fields as the rules read them (10_state.md R22, 00_scope.md
R7), the characters of a string operand (R8, 20_memory.md R52), and the two alphabets through which characters are read and
written (30_encoding.md R76, R77, R81). -/

namespace Sys2Proof.Machine

/-- `req.TS`, a signed value (R22). -/
def State.reqTs (s : State) : Int := s.cur.req.ts.toInt

/-- `req.RND`, unsigned (R22). -/
def State.reqRnd (s : State) : Nat := s.cur.req.rnd.toNat

/-- `req.VAL`, unsigned (R22). -/
def State.reqVal (s : State) : Nat := s.cur.req.val.toNat

/-- `req.NUM`, unsigned (R22). -/
def State.reqNum (s : State) : Nat := s.cur.req.num.toNat

/-- The characters of `req.STR` (R22). -/
def State.reqStr (s : State) : List Byte := s.cur.req.str.chars

/-- `NOW()`, unsigned (R11). -/
def State.nowValue (s : State) : Nat := s.cur.now.toNat

/-- `ENT()`, unsigned (R11). -/
def State.entValue (s : State) : Nat := s.cur.ent.toNat

/-- The 32 symbols of the Crockford alphabet in digit order (R76). UNVERIFIED, unsafe (log entry 11): R76 gives the
ASCII codes, and 93_implementation_defined.md G1 says that no source confirms them. -/
def alphabet : List Byte :=
  [0x30, 0x31, 0x32, 0x33, 0x34, 0x35, 0x36, 0x37, 0x38, 0x39,
   0x41, 0x42, 0x43, 0x44, 0x45, 0x46, 0x47, 0x48,
   0x4A, 0x4B, 0x4D, 0x4E, 0x50, 0x51, 0x52, 0x53, 0x54,
   0x56, 0x57, 0x58, 0x59, 0x5A]

/-- `ALPHA[d]`, for a digit value `d` of 0 to 31 (R76). -/
def alpha (d : Nat) : Byte := alphabet.getD d 0

/-- `fold(c)`: the 26 lower-case letters to upper case, every other byte to itself (R77). -/
def fold (c : Byte) : Byte := if 0x61#8 ≤ c ∧ c ≤ 0x7A#8 then c - 0x20#8 else c

/-- `inalpha(c)`: the folded character is one of the alphabet (R77). -/
def inAlpha (c : Byte) : Bool := (List.range 32).any fun d => alpha d == fold c

/-- `digit(c)`: the digit value whose symbol is the folded character; meant only for a `c` in the alphabet (R77). -/
def digit (c : Byte) : Nat := ((List.range 32).find? fun d => alpha d == fold c).getD 0

/-- The hyphen (R80). UNVERIFIED, unsafe (log entry 11): R80 gives the ASCII code, and 93_implementation_defined.md
G2 says that no source confirms it. -/
def hyphen : Byte := 0x2D

/-- `HEX[d]`, for 0 ≤ d ≤ 15, in the letter case `UUID_CASE` (R81). -/
def hexChar (uc : UuidCase) (d : Nat) : Byte :=
  if d < 10 then BitVec.ofNat 8 (0x30 + d)
  else match uc with
    | .lower => BitVec.ofNat 8 (0x61 + (d - 10))
    | .upper => BitVec.ofNat 8 (0x41 + (d - 10))

/-- A decimal digit character. -/
def isDecimal (c : Byte) : Bool := 0x30#8 ≤ c && c ≤ 0x39#8

/-- An upper-case hex letter. -/
def isHexUpper (c : Byte) : Bool := 0x41#8 ≤ c && c ≤ 0x46#8

/-- A lower-case hex letter. -/
def isHexLower (c : Byte) : Bool := 0x61#8 ≤ c && c ≤ 0x66#8

/-- `ishex(c)`: one of the 22 hex bytes (R81). -/
def isHex (c : Byte) : Bool := isDecimal c || isHexUpper c || isHexLower c

/-- `hexval(c)`, meant only for a hex byte (R81). -/
def hexVal (c : Byte) : Nat :=
  if isDecimal c then c.toNat - 0x30 else if isHexUpper c then c.toNat - 0x41 + 10 else c.toNat - 0x61 + 10

/-- Lexicographic order on strings, characters compared as unsigned bytes from index 0 (R8). DESIGN CHOICE, safe (log
entry 9): a string comes before every longer string it begins. -/
def lexLt : List Byte → List Byte → Bool
  | [], [] => false
  | [], _ :: _ => true
  | _ :: _, [] => false
  | a :: as, b :: bs => if a = b then lexLt as bs else decide (a.toNat < b.toNat)

end Sys2Proof.Machine
end

