-- ==== Sys2Proof/Machine/Codec.lean ====
section
/-! DEFINITION. Unit B32, the Base32 codec: ENC and DEC (40_base32_codec.md). -/

namespace Sys2Proof.Machine

/-- The digit of `n` that character `i` of a canonical string carries: bits [129 - 5i : 125 - 5i] (R79). -/
def b32Digit (n i : Nat) : Nat := (n >>> (5 * (25 - i))) &&& 31

/-- `b32enc(n)`, meant for n < 2^130: 26 upper-case characters, most significant digit first (R110). -/
def b32enc (n : Nat) : Text := ⟨(List.range 26).map fun i => alpha (b32Digit n i), by simp [strMax]⟩

/-- `b32dec(s)`, meant for a string over the alphabet: its base-32 positional value (R111). -/
def b32dec (s : List Byte) : Nat := s.foldl (fun acc c => acc * 32 + digit c) 0

/-- ENC (R112). -/
def execEnc (s : State) : Result :=
  if 2 ^ Config.encCap ≤ s.reqNum then raise s .valueOverflow none
  else succeed s s.msr Draws.nothing (Response.text (b32enc s.reqNum))

/-- DEC (R113). -/
def execDec (s : State) : Result :=
  if s.reqStr.all inAlpha then
    succeed s s.msr Draws.nothing (Response.number (BitVec.ofNat 180 (b32dec s.reqStr)))
  else raise s .invalidCharacter none

end Sys2Proof.Machine
end

