-- ==== Sys2Proof/Machine/Packer.lean ====
section
/-! DEFINITION. Unit PK, the bit packer: PACK and UNPACK (41_bit_packer.md). -/

namespace Sys2Proof.Machine

/-- `pack(t, r)`, meant for t < 2^48 and r < 2^80 (R130). -/
def pack (t r : Nat) : Nat := (t <<< 80) ||| r

/-- The timestamp half of `unpack(v)` (R131). -/
def unpackTs (v : Nat) : Nat := v >>> 80

/-- The random half of `unpack(v)` (R131). -/
def unpackRnd (v : Nat) : Nat := v &&& (2 ^ 80 - 1)

/-- The 128-bit value that a register value packs to (R21, R151). -/
def Msr.packed (m : Msr) : Nat := pack m.ts.toNat m.rnd.toNat

/-- A timestamp outside the 48-bit field: negative, or above `TSMAX` (R132, R172). -/
def tsOutOfRange (t : Int) : Bool := decide (t < 0) || decide ((Config.tsMax : Int) < t)

/-- PACK (R132); the timestamp is tested first (R223). -/
def execPack (s : State) : Result :=
  if tsOutOfRange s.reqTs then raise s .timestampOutOfRange none
  else if Config.rndMax < s.reqRnd then raise s .randomOutOfRange none
  else succeed s s.msr Draws.nothing (Response.value (BitVec.ofNat 128 (pack s.reqTs.toNat s.reqRnd)))

/-- UNPACK (R133); both results are zero-extended into their fields (R63). -/
def execUnpack (s : State) : Result :=
  succeed s s.msr Draws.nothing
    (Response.fields (BitVec.ofNat 64 (unpackTs s.reqVal)) (BitVec.ofNat 128 (unpackRnd s.reqVal)))

end Sys2Proof.Machine
end

