-- ==== Sys2Proof/Machine/Monotonic.lean ====
section
/-! DEFINITION. Unit MS, the monotonic sequence register and its comparator: the transition and MONO (43_monotonic.md). -/

namespace Sys2Proof.Machine

/-- The three outcomes of the comparison unit (R150). -/
inductive TimeOrder where
  | later
  | same
  | earlier
deriving DecidableEq, Repr

/-- The comparison unit: a candidate time against `MSR.TS`, as integers (R150). -/
def compareTime (now : Int) (ts : Millis) : TimeOrder :=
  if (ts.toNat : Int) < now then .later else if now = ts.toNat then .same else .earlier

/-- What a transition gives: a new register value, with whether it took the entropy word; or a failure. -/
inductive MonoStep where
  | moved (m : Msr) (usedEnt : Bool)
  | failed (k : ErrKind)
deriving DecidableEq, Repr

/-- The new-period branch (R151): the range of the candidate is tested before anything is stored or drawn. -/
def newPeriod (now : Int) (e : Rand) : MonoStep :=
  if (Config.tsMax : Int) < now then .failed .timestampOutOfRange
  else .moved { ts := BitVec.ofNat 48 now.toNat, rnd := e } true

/-- The increment branch (R151); on an exhausted random field the policy `MONO_OVF` decides (decision D10). -/
def nextInPeriod (ovf : MonoOvf) (m : Msr) (e : Rand) : MonoStep :=
  if m.rnd.toNat = Config.rndMax then
    match ovf with
    | .fail => .failed .monotonicOverflow
    | .advance =>
      if m.ts.toNat = Config.tsMax then .failed .timestampOutOfRange else .moved { ts := m.ts + 1, rnd := e } true
  else .moved { m with rnd := m.rnd + 1 } false

/-- `monostep(m, now, e)` (R151). -/
def monoStep (ovf : MonoOvf) (m : Msr) (now : Int) (e : Rand) : MonoStep :=
  match compareTime now m.ts with
  | .later => newPeriod now e
  | .same => nextInPeriod ovf m e
  | .earlier => nextInPeriod ovf m e

/-- The entropy word, where it is taken. -/
def entIf (used : Bool) (o : Offer) : Option Rand := if used then some o.ent else none

/-- MONO (R152): one transition with the candidate time from `req.TS`. -/
def execMono (s : State) : Result :=
  match monoStep Config.monoOvf s.msr s.reqTs s.cur.ent with
  | .failed k => raise s k none
  | .moved m used =>
    succeed s m { now := none, ent := entIf used s.cur } (Response.value (BitVec.ofNat 128 m.packed))

end Sys2Proof.Machine
end

