-- ==== Sys2Proof/Machine/Validator.lean ====
section
/-! DEFINITION. Unit VL, the validator: CHK (42_validator.md). -/

namespace Sys2Proof.Machine

/-- `wellformed(s)`: 26 characters, each in the alphabet (R140). -/
def wellFormedText (s : List Byte) : Bool := s.length == Config.ulidLen && s.all inAlpha

/-- CHK (R141). -/
def execChk (s : State) : Result := succeed s s.msr Draws.nothing (Response.bool (wellFormedText s.reqStr))

end Sys2Proof.Machine
end

