-- ==== Sys2Proof/Machine/Engine.lean ====
section
/-! DEFINITION. Unit EN, the engine compositions: GEN, GENM, GENTS, ISVALID, XTS, XRND and NORM (44_engine.md). -/

namespace Sys2Proof.Machine

/-- The string of a timestamp and a random value: `b32enc(pack(t, e))` (R170, R172). -/
def ulidText (t e : Nat) : Text := b32enc (pack t e)

/-- GEN (R170). -/
def execGen (s : State) : Result :=
  succeed s s.msr (Draws.both s.cur) (Response.text (ulidText s.nowValue s.entValue))

/-- GENM (R171): the transition MONO makes, with the candidate time from `NOW`, then the encoder. -/
def execGenm (s : State) : Result :=
  match monoStep Config.monoOvf s.msr s.nowValue s.cur.ent with
  | .failed k => raise s k (some s.cur.now)
  | .moved m used =>
    succeed s m { now := some s.cur.now, ent := entIf used s.cur } (Response.text (b32enc m.packed))

/-- GENTS (R172): both bounds are tested before any entropy is taken. -/
def execGents (s : State) : Result :=
  if tsOutOfRange s.reqTs then raise s .invalidTimestamp none
  else succeed s s.msr (Draws.entropy s.cur) (Response.text (ulidText s.reqTs.toNat s.entValue))

/-- ISVALID (R173). -/
def execIsvalid (s : State) : Result := succeed s s.msr Draws.nothing (Response.bool (wellFormedText s.reqStr))

/-- XTS (R174, R178). -/
def execXts (s : State) : Result :=
  if wellFormedText s.reqStr then
    succeed s s.msr Draws.nothing (Response.time (BitVec.ofNat 64 (unpackTs (b32dec s.reqStr))))
  else raise s .invalidFormat none

/-- XRND (R175, R178). -/
def execXrnd (s : State) : Result :=
  if wellFormedText s.reqStr then
    succeed s s.msr Draws.nothing (Response.random (BitVec.ofNat 128 (unpackRnd (b32dec s.reqStr))))
  else raise s .invalidFormat none

/-- NORM (R176). -/
def execNorm (s : State) : Result :=
  if wellFormedText s.reqStr then succeed s s.msr Draws.nothing (Response.text (b32enc (b32dec s.reqStr)))
  else raise s .invalidFormat none

end Sys2Proof.Machine
end

