-- ==== Sys2Proof/Machine/Uuid.lean ====
section
/-! DEFINITION. Unit UU, the UUID bridge: TOUUID and FROMUUID (45_uuid_bridge.md). -/

namespace Sys2Proof.Machine

/-- The indices of the four hyphens in UUID text (R80). -/
def hyphenAt : List Nat := [8, 13, 18, 23]

/-- Hex digits `from` to `from + n - 1` of a value, digit 0 the most significant of 32 (R200). -/
def hexDigits (uc : UuidCase) (v from_ n : Nat) : List Byte :=
  (List.range' from_ n).map fun k => hexChar uc ((v >>> (4 * (31 - k))) &&& 15)

/-- `uuidtext(v)`, meant for v < 2^128: the digits grouped 8-4-4-4-12 (R80, R200). -/
def uuidText (uc : UuidCase) (v : Nat) : Text :=
  ⟨hexDigits uc v 0 8 ++ [hyphen] ++ hexDigits uc v 8 4 ++ [hyphen] ++ hexDigits uc v 12 4 ++ [hyphen]
    ++ hexDigits uc v 16 4 ++ [hyphen] ++ hexDigits uc v 20 12, by simp [hexDigits]⟩

/-- The base-16 positional value of a list of hex characters (R201). -/
def hexNumber (d : List Byte) : Nat := d.foldl (fun acc c => acc * 16 + hexVal c) 0

/-- The character that the 36-character form needs at index `i` (R201). -/
def groupedAt (s : List Byte) (i : Nat) : Bool :=
  if hyphenAt.contains i then s.getD i 0 == hyphen else isHex (s.getD i 0)

/-- The characters of the 36-character form at the 32 digit positions, in order (R201). -/
def groupedDigits (s : List Byte) : List Byte :=
  ((List.range 36).filter fun i => !hyphenAt.contains i).map fun i => s.getD i 0

/-- `uuidparse(s)`: a value below 2^128, or failure (R201). -/
def uuidParse (s : List Byte) : Option Nat :=
  if s.length = Config.uuidLen then
    if (List.range 36).all (groupedAt s) then some (hexNumber (groupedDigits s)) else none
  else if s.length = Config.uuidHex then
    if s.all isHex then some (hexNumber s) else none
  else none

/-- TOUUID (R202); the format is tested before the size (R223). -/
def execTouuid (s : State) : Result :=
  if wellFormedText s.reqStr then
    if 2 ^ 128 ≤ b32dec s.reqStr then raise s .valueOverflow none
    else succeed s s.msr Draws.nothing (Response.text (uuidText Config.uuidCase (b32dec s.reqStr)))
  else raise s .invalidFormat none

/-- FROMUUID (R203). -/
def execFromuuid (s : State) : Result :=
  match uuidParse s.reqStr with
  | none => raise s .invalidUuid none
  | some v => succeed s s.msr Draws.nothing (Response.text (b32enc v))

end Sys2Proof.Machine
end

