-- ==== Sys2Proof/Machine/Dispatch.lean ====
section
/-! DEFINITION. One arm per command: the meaning of the instruction that the accepted command word selects
(60_exceptions.md R233). -/

namespace Sys2Proof.Machine

def exec (i : Instr) (s : State) : Host.Outcome State Fault Refusal :=
  match i with
  -- unit B32
  | .enc => Sys2Proof.Machine.execEnc s
  | .dec => Sys2Proof.Machine.execDec s
  -- unit PK
  | .pack => Sys2Proof.Machine.execPack s
  | .unpack => Sys2Proof.Machine.execUnpack s
  -- unit VL
  | .chk => Sys2Proof.Machine.execChk s
  -- unit MS
  | .mono => Sys2Proof.Machine.execMono s
  -- unit EN
  | .gen => Sys2Proof.Machine.execGen s
  | .genm => Sys2Proof.Machine.execGenm s
  | .gents => Sys2Proof.Machine.execGents s
  | .isvalid => Sys2Proof.Machine.execIsvalid s
  | .xts => Sys2Proof.Machine.execXts s
  | .xrnd => Sys2Proof.Machine.execXrnd s
  | .norm => Sys2Proof.Machine.execNorm s
  -- unit UU
  | .touuid => Sys2Proof.Machine.execTouuid s
  | .fromuuid => Sys2Proof.Machine.execFromuuid s

end Sys2Proof.Machine
end

