-- ==== Sys2Proof/Machine/Step.lean ====
section
/-! DEFINITION. One step of the machine (60_exceptions.md R233): the next thing the outside does. A request is accepted
and its command executed whole, response included (20_memory.md R57); reset puts every field at its reset value
(70_reset_and_hazards.md R250); with nothing to do the block is idle and keeps its state (R228, R232). -/

namespace Sys2Proof.Machine

/-- The command of the accepted request runs: the meaning of a legal word, the failure of an illegal one. -/
def runCommand (s : State) : Host.Outcome State Fault Refusal :=
  match s.decoded with
  | .instr i => exec i s
  | .illegal _ => execIllegal s

/-- One step. -/
def step (s : State) : Host.Outcome State Fault Refusal :=
  match s.agenda with
  | [] => .next s
  | .reset :: rest => .next (State.afterReset rest)
  | .present o :: rest => runCommand (s.accept o rest)

/-- The state with the command word of `nbits` bits `w` in a request that is accepted next; the operands and the draws
are those that `cur` holds. DESIGN CHOICE, safe (log entry 10). -/
def State.withFetchWord (s : State) (nbits w : Nat) : State := s.withNextWord (BitVec.ofNat 8 (w % 2 ^ nbits))

end Sys2Proof.Machine
end

