-- ==== Sys2Proof/Safety.lean ====
section
/-! DEFINITION. The terms in which claims about the block are made: what a command may read and write (10_state.md R24),
when it fails and how (60_exceptions.md R222), what a lawful exchange looks like (R221, R224, R228), the sequence of
monotonic results since reset (43_monotonic.md R154), and the layouts of text results, written bit by bit
(30_encoding.md R79, R80). -/

namespace Sys2Proof

/-- The word is illegal (R73). -/
def Decoded.isIllegal : Decoded → Bool
  | .illegal _ => true
  | .instr _ => false

namespace Machine

/-- The response fields a command writes on success, `rsp.ERR` left out (R24). -/
structure Writes where
  b : Bool
  ts : Bool
  rnd : Bool
  val : Bool
  num : Bool
  str : Bool
deriving DecidableEq, Repr

/-- What a command's result may depend on (R24): request fields, ports and `MSR`. -/
structure Reads where
  ts : Bool
  rnd : Bool
  val : Bool
  num : Bool
  str : Bool
  now : Bool
  ent : Bool
  msr : Bool
deriving DecidableEq, Repr

/-- A command that writes no result. -/
def Writes.nothing : Writes := { b := false, ts := false, rnd := false, val := false, num := false, str := false }

/-- A command that reads nothing. -/
def Reads.nothing : Reads :=
  { ts := false, rnd := false, val := false, num := false, str := false, now := false, ent := false, msr := false }

/-- The column "writes on success" of R24. -/
def writesOf : Instr → Writes
  | .enc => { Writes.nothing with str := true }
  | .dec => { Writes.nothing with num := true }
  | .pack => { Writes.nothing with val := true }
  | .unpack => { Writes.nothing with ts := true, rnd := true }
  | .chk => { Writes.nothing with b := true }
  | .mono => { Writes.nothing with val := true }
  | .gen => { Writes.nothing with str := true }
  | .genm => { Writes.nothing with str := true }
  | .gents => { Writes.nothing with str := true }
  | .isvalid => { Writes.nothing with b := true }
  | .xts => { Writes.nothing with ts := true }
  | .xrnd => { Writes.nothing with rnd := true }
  | .norm => { Writes.nothing with str := true }
  | .touuid => { Writes.nothing with str := true }
  | .fromuuid => { Writes.nothing with str := true }

/-- The column "reads" of R24. -/
def readsOf : Instr → Reads
  | .enc => { Reads.nothing with num := true }
  | .dec => { Reads.nothing with str := true }
  | .pack => { Reads.nothing with ts := true, rnd := true }
  | .unpack => { Reads.nothing with val := true }
  | .chk => { Reads.nothing with str := true }
  | .mono => { Reads.nothing with ts := true, msr := true, ent := true }
  | .gen => { Reads.nothing with now := true, ent := true }
  | .genm => { Reads.nothing with now := true, msr := true, ent := true }
  | .gents => { Reads.nothing with ts := true, ent := true }
  | .isvalid => { Reads.nothing with str := true }
  | .xts => { Reads.nothing with str := true }
  | .xrnd => { Reads.nothing with str := true }
  | .norm => { Reads.nothing with str := true }
  | .touuid => { Reads.nothing with str := true }
  | .fromuuid => { Reads.nothing with str := true }

/-- The command writes `MSR` when it succeeds: MONO and GENM only (R21, R24). -/
def writesMsr : Instr → Bool
  | .mono => true
  | .genm => true
  | .enc => false
  | .dec => false
  | .pack => false
  | .unpack => false
  | .chk => false
  | .gen => false
  | .gents => false
  | .isvalid => false
  | .xts => false
  | .xrnd => false
  | .norm => false
  | .touuid => false
  | .fromuuid => false

/-- Two states agree on everything that `r` names. -/
structure AgreeOn (r : Reads) (s t : State) : Prop where
  ts : r.ts = true → s.cur.req.ts = t.cur.req.ts
  rnd : r.rnd = true → s.cur.req.rnd = t.cur.req.rnd
  val : r.val = true → s.cur.req.val = t.cur.req.val
  num : r.num = true → s.cur.req.num = t.cur.req.num
  str : r.str = true → s.cur.req.str = t.cur.req.str
  now : r.now = true → s.cur.now = t.cur.now
  ent : r.ent = true → s.cur.ent = t.cur.ent
  msr : r.msr = true → s.msr = t.msr

/-- The response fields that have a value. -/
def Response.written (r : Response) : Writes :=
  { b := r.b.isSome, ts := r.ts.isSome, rnd := r.rnd.isSome, val := r.val.isSome, num := r.num.isSome,
    str := r.str.isSome }

/-- The response of the command completed last. -/
def State.lastRsp (s : State) : Option Response := s.trace.head?.map (·.rsp)

/-- The draws of the command completed last. -/
def State.lastDraws (s : State) : Option Draws := s.trace.head?.map (·.draws)

/-- A monotonic candidate is refused as out of range, or the random field is exhausted (R152, R222). -/
def monoFailure (now : Int) (m : Msr) : ErrKind :=
  if (Config.tsMax : Int) < now then .timestampOutOfRange
  else if now ≤ m.ts.toNat ∧ m.rnd.toNat = Config.rndMax then .monotonicOverflow
  else .none

/-- A string has one of the two shapes of UUID text (R201). -/
def UuidShaped (s : List Byte) : Prop :=
  (s.length = 36 ∧ ∀ i < 36, if i = 8 ∨ i = 13 ∨ i = 18 ∨ i = 23 then s[i]? = some hyphen
    else ∃ c, s[i]? = some c ∧ isHex c = true)
  ∨ (s.length = 32 ∧ ∀ c ∈ s, isHex c = true)

/-- The table of R222: the kind with which a command fails in a state, or none. -/
def FailsWith (s : State) : Instr → ErrKind → Prop
  | .enc, k => k = if 2 ^ 130 ≤ s.reqNum then .valueOverflow else .none
  | .dec, k => k = if ∃ c ∈ s.reqStr, inAlpha c = false then .invalidCharacter else .none
  | .pack, k =>
    k = if s.reqTs < 0 ∨ 2 ^ 48 - 1 < s.reqTs then .timestampOutOfRange
        else if 2 ^ 80 - 1 < s.reqRnd then .randomOutOfRange else .none
  | .unpack, k => k = .none
  | .chk, k => k = .none
  | .mono, k => k = monoFailure s.reqTs s.msr
  | .gen, k => k = .none
  | .genm, k => k = if s.nowValue ≤ s.msr.ts.toNat ∧ s.msr.rnd.toNat = 2 ^ 80 - 1 then .monotonicOverflow else .none
  | .gents, k => k = if s.reqTs < 0 ∨ 2 ^ 48 - 1 < s.reqTs then .invalidTimestamp else .none
  | .isvalid, k => k = .none
  | .xts, k => k = if wellFormedText s.reqStr then .none else .invalidFormat
  | .xrnd, k => k = if wellFormedText s.reqStr then .none else .invalidFormat
  | .norm, k => k = if wellFormedText s.reqStr then .none else .invalidFormat
  | .touuid, k =>
    k = if wellFormedText s.reqStr then (if 2 ^ 128 ≤ b32dec s.reqStr then .valueOverflow else .none)
        else .invalidFormat
  | .fromuuid, k => (UuidShaped s.reqStr ∧ k = .none) ∨ (¬ UuidShaped s.reqStr ∧ k = .invalidUuid)

/-- The conditions under which a command takes its word of entropy (R157, R170, R172, R230). -/
def TakesEntropy (s : State) : Instr → Prop
  | .gen => True
  | .gents => 0 ≤ s.reqTs ∧ s.reqTs ≤ 2 ^ 48 - 1
  | .mono => s.msr.ts.toNat < s.reqTs ∧ s.reqTs ≤ 2 ^ 48 - 1
  | .genm => s.msr.ts.toNat < s.nowValue
  | .enc => False
  | .dec => False
  | .pack => False
  | .unpack => False
  | .chk => False
  | .isvalid => False
  | .xts => False
  | .xrnd => False
  | .norm => False
  | .touuid => False
  | .fromuuid => False

/-- The command an exchange's word selects. -/
def Exchange.instr? (x : Exchange) : Option Instr :=
  match decode Config.hasUuid x.req.cmd with
  | .instr i => some i
  | .illegal _ => none

/-- The value of a successful MONO or GENM (R153): the value returned, or the value of the string returned. -/
def Exchange.monoValue? (x : Exchange) : Option Nat :=
  match x.instr? with
  | some .mono => x.rsp.val.map (·.toNat)
  | some .genm => x.rsp.str.map fun t => b32dec t.chars
  | _ => none

/-- The values of the successful MONO and GENM commands among some exchanges, in the order of the exchanges (R154). -/
def monoValues (xs : List Exchange) : List Nat := xs.filterMap Exchange.monoValue?

/-- R153 and R154 as an invariant: newest first, the monotonic results since reset fall strictly down to the packed reset
value 0, and the newest of them is the value that `MSR` holds. -/
def SequenceInv (s : State) : Prop :=
  (monoValues s.trace ++ [0]).Pairwise (· > ·) ∧ (monoValues s.trace ++ [0]).head? = some s.msr.packed

/-- No clock value that a successful GENM saw since reset is later than the stored timestamp (R260). -/
def ClockInv (s : State) : Prop :=
  ∀ x ∈ s.trace, x.instr? = some .genm → x.rsp.err = 0 → ∀ n, x.draws.now = some n → n.toNat ≤ s.msr.ts.toNat

/-- The command is a GEN or a GENTS that makes a string with the timestamp `ts` (R258). -/
def StampedAt (i : Instr) (s : State) (ts : Millis) : Prop :=
  (i = .gen ∧ s.cur.now = ts) ∨ (i = .gents ∧ s.reqTs = ts.toNat)

/-- A canonical ULID string: 26 characters, each one of the upper-case alphabet (R79, R177). -/
def Canonical (t : Text) : Prop := t.chars.length = 26 ∧ ∀ c ∈ t.chars, c ∈ alphabet

/-- What every completed exchange satisfies, whatever the command: codes 0 to 9 only (R221); on a failure no other field
and no entropy (R224); on success exactly the fields of R24; entropy only in MONO, GEN, GENM and GENTS and only on a
success, the clock only in GEN and GENM (R228); results within the ranges of R23 and R177. -/
structure Exchange.Lawful (x : Exchange) : Prop where
  code_le : x.rsp.err.toNat ≤ 9
  illegal : x.instr? = none → x.rsp = Response.code .illegalCommand ∧ x.draws = Draws.nothing
  failed : x.rsp.err ≠ 0 → x.rsp.written = Writes.nothing ∧ x.draws.ent = none
  done : ∀ i, x.instr? = some i → x.rsp.err = 0 → x.rsp.written = writesOf i
  ent : x.draws.ent ≠ none → x.instr? = some .gen ∨ x.instr? = some .genm ∨ x.instr? = some .gents ∨ x.instr? = some .mono
  now : x.draws.now ≠ none ↔ x.instr? = some .gen ∨ x.instr? = some .genm
  ts : ∀ v, x.rsp.ts = some v → 0 ≤ v.toInt ∧ v.toNat < 2 ^ 50
  rnd : ∀ v, x.rsp.rnd = some v → v.toNat < 2 ^ 80
  canonical : ∀ t, x.rsp.str = some t → x.instr? ≠ some .touuid → Canonical t
  uuid : ∀ t, x.rsp.str = some t → x.instr? = some .touuid → t.chars.length = 36
  small : ∀ t, x.rsp.str = some t → (x.instr? = some .gen ∨ x.instr? = some .genm ∨ x.instr? = some .gents
    ∨ x.instr? = some .fromuuid) → b32dec t.chars < 2 ^ 128

/-- Every exchange since reset is lawful. -/
def TraceInv (s : State) : Prop := ∀ x ∈ s.trace, x.Lawful

/-- The invariant of the machine. -/
def Inv (s : State) : Prop := SequenceInv s ∧ TraceInv s

/-- The string is the canonical layout of a 130-bit number: character `i` carries bits [129 - 5i : 125 - 5i] (R79). -/
def Shows (t : Text) (n : BitVec 130) : Prop :=
  t.chars.length = 26 ∧ ∀ i < 26, t.chars[i]? = some (alpha (n.extractLsb' (5 * (25 - i)) 5).toNat)

/-- The 130-bit number of a 128-bit value with the given fields: two zero bits, the timestamp, the random field (R79). -/
def ulidBits (t : Millis) (r : Rand) : BitVec 130 := (0#2 ++ t) ++ r

/-- The index in UUID text of hex digit `k` (R80): one further for each hyphen before it. -/
def uuidIndex (k : Nat) : Nat :=
  if k < 8 then k else if k < 12 then k + 1 else if k < 16 then k + 2 else if k < 20 then k + 3 else k + 4

/-- The string is the lower-case UUID text of a 128-bit value: hex digit `k` carries bits [127 - 4k : 124 - 4k] (R80). -/
def ShowsUuid (t : Text) (v : Value) : Prop :=
  t.chars.length = 36
    ∧ (∀ k < 32, t.chars[uuidIndex k]? = some (hexChar .lower (v.extractLsb' (4 * (31 - k)) 4).toNat))
    ∧ t.chars[8]? = some hyphen ∧ t.chars[13]? = some hyphen ∧ t.chars[18]? = some hyphen ∧ t.chars[23]? = some hyphen

/-- The positional value of the digits of `s` at indices `from` to `from + n - 1`, the first the most significant. -/
def digitSum (s : List Byte) (from_ n : Nat) : Nat :=
  ∑ i ∈ Finset.range n, digit (s.getD (from_ + i) 0) * 32 ^ (n - 1 - i)

/-- A character in lower case: the 26 upper-case letters to lower case, every other byte to itself (R115). -/
def lowerCase (c : Byte) : Byte := if 0x41#8 ≤ c ∧ c ≤ 0x5A#8 then c + 0x20#8 else c

/-- The monotonic candidate of an offer, for the two commands that have one (R150). -/
def Offer.candidate? (o : Offer) : Option Int :=
  match decode Config.hasUuid o.req.cmd with
  | .instr .mono => some o.req.ts.toInt
  | .instr .genm => some (o.now.toNat : Int)
  | _ => none

/-- The outside presents only requests from `nreq` requesters (R5, R231). -/
def Move.wellFormed (nreq : Nat) : Move → Bool
  | .present o => decide (o.who < nreq)
  | .reset => true

end Machine
end Sys2Proof
end

