-- ==== Sys2Proof/Certificates/Slice0/Obligations.lean ====
section
/-! DEFINITION. The statements about the ULID CORE, each formalising numbered rules of spec/. In the statements about one
command the state `s` is the one in which its request has been accepted: `s.cur` holds the six request fields and what the
two ports offer. `s.finish m d r` is `s` with `MSR` = `m` and one more exchange, of draws `d` and response `r`, so an
equation `exec i s = .next (s.finish m d r)` is the result and the whole frame at once. -/

open Sys2Proof Sys2Proof.Machine

-- Encoding and decoding (30_encoding.md).

/-- R72: the fifteen command words, all eight bits compared, each with its command, mnemonic and unit; and the encoder gives
exactly these words. -/
def Obligations.CommandWordsDecodeAsTabled : Prop :=
  (∀ p ∈ [((0x10#8 : CommandWord), Instr.enc, "ENC", UnitName.b32), (0x11#8, .dec, "DEC", .b32),
      (0x20#8, .pack, "PACK", .pk), (0x21#8, .unpack, "UNPACK", .pk), (0x30#8, .chk, "CHK", .vl),
      (0x40#8, .mono, "MONO", .ms), (0x50#8, .gen, "GEN", .en), (0x51#8, .genm, "GENM", .en),
      (0x52#8, .gents, "GENTS", .en), (0x53#8, .isvalid, "ISVALID", .en), (0x54#8, .xts, "XTS", .en),
      (0x55#8, .xrnd, "XRND", .en), (0x56#8, .norm, "NORM", .en), (0x60#8, .touuid, "TOUUID", .uu),
      (0x61#8, .fromuuid, "FROMUUID", .uu)],
    decode Config.hasUuid p.1 = .instr p.2.1 ∧ p.2.1.mnemonic = p.2.2.1 ∧ p.2.1.unit = p.2.2.2)
  ∧ ∀ w i, decode Config.hasUuid w = .instr i ↔ w = encode i

/-- R71: `UNIT` in bits [7:4] and `FN` in bits [3:0], units numbered 1 to 6. -/
def Obligations.WordHoldsUnitAndFunction : Prop :=
  (∀ w i, decode Config.hasUuid w = .instr i → w.extractLsb' 4 4 = i.unit.code ∧ w.extractLsb' 0 4 = i.function)
  ∧ UnitName.b32.code = 1 ∧ UnitName.pk.code = 2 ∧ UnitName.vl.code = 3 ∧ UnitName.ms.code = 4
  ∧ UnitName.en.code = 5 ∧ UnitName.uu.code = 6

/-- R73: 241 of the 256 words are illegal, 243 where `HAS_UUID` is false; an illegal word makes the command fail with
`IllegalCommand`, and nothing else happens (R235). -/
def Obligations.OtherWordsFailAsIllegal : Prop :=
  ((List.range 256).filter fun n => (decode true (BitVec.ofNat 8 n)).isIllegal).length = 241
  ∧ ((List.range 256).filter fun n => (decode false (BitVec.ofNat 8 n)).isIllegal).length = 243
  ∧ (∀ w i, decode false w = .instr i ↔ w = encode i ∧ w ≠ 0x60#8 ∧ w ≠ 0x61#8)
  ∧ ∀ (s : State) (o : Offer) (rest : List Move), s.agenda = .present o :: rest →
      (∀ i, o.req.cmd ≠ encode i) →
      step s = .next { s with
        cur := o
        agenda := rest
        trace := { who := o.who, req := o.req, draws := { now := none, ent := none },
                   rsp := { err := 9, b := none, ts := none, rnd := none, val := none, num := none, str := none } }
                 :: s.trace }

/-- R233: a step on an accepted request is the meaning of the command its word selects, in the state with the request and
the offered draws in place and the rest of the agenda left. -/
def Obligations.StepRunsDecodedInstruction : Prop :=
  ∀ (s : State) (o : Offer) (rest : List Move) (i : Instr), s.agenda = .present o :: rest →
    decode Config.hasUuid o.req.cmd = .instr i → step s = exec i { s with cur := o, agenda := rest }

/-- An instruction placed by `withFetchWord` is what the next step runs, on the operands and draws in `cur` (log entry 10,
the model's choice). -/
def Obligations.FetchWordRunsInstruction : Prop :=
  ∀ (s : State) (w : Nat) (i : Instr), decodeTableWord 8 w = some i →
    step (s.withFetchWord 8 w) =
      exec i { s with cur := { s.cur with req := { s.cur.req with cmd := BitVec.ofNat 8 w } } }

-- Reset and the shape of a step (10_state.md, 60_exceptions.md, 70_reset_and_hazards.md).

/-- R30: `MSR` after reset, and what the first MONO or GENM then does: R156 (a) with a candidate above 0, R156 (b) with 0
or a negative one, which the spec marks "derived: from rule R151 and 10_state.md rule R30". -/
def Obligations.FirstMonotonicStepAfterReset : Prop :=
  State.reset.msr = { ts := 0, rnd := 0 }
  ∧ (∀ s : State, s.msr = State.reset.msr → 0 < s.reqTs → s.reqTs ≤ 2 ^ 48 - 1 →
      exec .mono s = .next (s.finish { ts := BitVec.ofInt 48 s.reqTs, rnd := s.cur.ent } (Draws.entropy s.cur)
        (Response.value (BitVec.ofInt 48 s.reqTs ++ s.cur.ent))))
  ∧ (∀ s : State, s.msr = State.reset.msr → s.reqTs ≤ 0 →
      exec .mono s = .next (s.finish { ts := 0, rnd := 1 } Draws.nothing (Response.value 1)))
  ∧ (∀ s : State, s.msr = State.reset.msr → 0 < s.nowValue →
      ∃ t, Shows t (ulidBits s.cur.now s.cur.ent)
        ∧ exec .genm s = .next (s.finish { ts := s.cur.now, rnd := s.cur.ent } (Draws.both s.cur) (Response.text t)))
  ∧ (∀ s : State, s.msr = State.reset.msr → s.nowValue = 0 →
      ∃ t, Shows t 1 ∧ exec .genm s = .next (s.finish { ts := 0, rnd := 1 } (Draws.clock s.cur) (Response.text t)))

/-- R250, R251: reset clears `MSR` whatever the state was. That the record of the run starts afresh and that what the outside
does next is kept is the model's choice (log entry 8).
Nothing is said of the request fields, which have no value after reset (R252). -/
def Obligations.ResetClearsRegisterAndRun : Prop :=
  ∀ (s : State) (rest : List Move), s.agenda = .reset :: rest →
    ∃ t, step s = .next t ∧ t.msr = { ts := 0, rnd := 0 } ∧ t.trace = [] ∧ t.agenda = rest

/-- R228: with nothing presented the block does nothing. -/
def Obligations.IdleBlockKeepsItsState : Prop :=
  ∀ s : State, s.agenda = [] → step s = .next s

/-- R233: the step on an accepted request is total, adds exactly one exchange, of that request and its requester, and
leaves `MSR` alone except in a successful MONO or GENM. The trace that the exchange is added to is the model's own field (log
entry 1). -/
def Obligations.StepAnswersOnceAndIsTotal : Prop :=
  (∀ s : State, ∃ t, step s = .next t)
  ∧ ∀ (s : State) (o : Offer) (rest : List Move), s.agenda = .present o :: rest →
      ∃ m d r, step s = .next { s with
          msr := m
          cur := o
          agenda := rest
          trace := { who := o.who, req := o.req, draws := d, rsp := r } :: s.trace }
        ∧ (m ≠ s.msr → r.err = 0 ∧ (o.req.cmd = 0x40#8 ∨ o.req.cmd = 0x51#8))

/-- R228, R58, R259: after as many steps as the agenda is long every request has had exactly one response, in the order
of acceptance, each beside the requester that issued it. That the acceptance order, and with it the fairness of the arbiter,
is the finite list `agenda` is the model's choice (log entry 4), and so is that the responses are the record `trace` (log
entry 1). -/
def Obligations.EveryRequestIsAnsweredInOrder : Prop :=
  ∀ (os : List Offer) (s : State), s.agenda = os.map Move.present →
    ∃ t, Host.Core.run Sys2Proof.core os.length s = .next t ∧ t.agenda = []
      ∧ t.trace.reverse.map (fun x => (x.who, x.req))
        = s.trace.reverse.map (fun x => (x.who, x.req)) ++ os.map (fun o => (o.who, o.req))

/-- R21, R24: what a command leaves unchanged: the request fields and ports, the agenda, every earlier exchange, and `MSR`
unless it is a MONO or GENM that succeeds. -/
def Obligations.CommandFrame : Prop :=
  ∀ (i : Instr) (s t : State), exec i s = .next t →
    t.cur = s.cur ∧ t.agenda = s.agenda
    ∧ ∃ d r, t.trace = { who := s.cur.who, req := s.cur.req, draws := d, rsp := r } :: s.trace
        ∧ (t.msr ≠ s.msr → writesMsr i = true ∧ r.err = 0)

-- Unit B32 (40_base32_codec.md).

/-- R112 (with R110 and R79): ENC. -/
def Obligations.EncRendersNumber : Prop :=
  encode .enc = 0x10#8 ∧ ∀ s : State,
    (2 ^ 130 ≤ s.reqNum → exec .enc s = .next (s.finish s.msr Draws.nothing (Response.code .valueOverflow)))
    ∧ (s.reqNum < 2 ^ 130 → ∃ t, Shows t (s.cur.req.num.setWidth 130)
        ∧ exec .enc s = .next (s.finish s.msr Draws.nothing (Response.text t)))

/-- R113 (with R111): DEC. -/
def Obligations.DecReadsPositionalValue : Prop :=
  encode .dec = 0x11#8 ∧ ∀ s : State,
    ((∃ c ∈ s.reqStr, inAlpha c = false) →
      exec .dec s = .next (s.finish s.msr Draws.nothing (Response.code .invalidCharacter)))
    ∧ ((∀ c ∈ s.reqStr, inAlpha c = true) → ∃ n : NumField, n.toNat = digitSum s.reqStr 0 s.reqStr.length
        ∧ exec .dec s = .next (s.finish s.msr Draws.nothing (Response.number n)))

/-- R77: exactly 54 bytes are in the alphabet, given here by the codes of R76 (which the spec marks "from general knowledge,
not in source": log entry 11), and a byte's digit is the index of its folded
symbol. -/
def Obligations.AlphabetIsFiftyFourBytes : Prop :=
  (∀ c : Byte, inAlpha c = true ↔
    (0x30 ≤ c.toNat ∧ c.toNat ≤ 0x39)
    ∨ (0x41 ≤ c.toNat ∧ c.toNat ≤ 0x5A ∧ c.toNat ≠ 0x49 ∧ c.toNat ≠ 0x4C ∧ c.toNat ≠ 0x4F ∧ c.toNat ≠ 0x55)
    ∨ (0x61 ≤ c.toNat ∧ c.toNat ≤ 0x7A ∧ c.toNat ≠ 0x69 ∧ c.toNat ≠ 0x6C ∧ c.toNat ≠ 0x6F ∧ c.toNat ≠ 0x75))
  ∧ ((List.range 256).filter fun n => inAlpha (BitVec.ofNat 8 n)).length = 54
  ∧ ∀ c : Byte, inAlpha c = true → digit c < 32 ∧ alpha (digit c) = fold c

/-- R114: the codec's round trips; above 2^128 and in the second direction the spec marks the law "derived: from rules R110
and R111". -/
def Obligations.CodecRoundTrip : Prop :=
  (∀ v < 2 ^ 130, b32dec (b32enc v).chars = v)
  ∧ ∀ s : List Byte, s.length = 26 → (∀ c ∈ s, inAlpha c = true) → (b32enc (b32dec s)).chars = s.map fold

/-- R115: decoding does not see letter case. -/
def Obligations.DecodeIgnoresCase : Prop :=
  ∀ s : List Byte, (∀ c ∈ s, inAlpha c = true) →
    b32dec (s.map fold) = b32dec s ∧ b32dec (s.map lowerCase) = b32dec s

/-- R116: canonical strings are ordered as their values are. -/
def Obligations.EncodingKeepsOrder : Prop :=
  ∀ a b : Nat, a < 2 ^ 130 → b < 2 ^ 130 → (a < b ↔ lexLt (b32enc a).chars (b32enc b).chars = true)

/-- R117: a leading zero, the symbol of digit 0, cannot be seen by decode. -/
def Obligations.LeadingZeroIsInvisible : Prop :=
  ∀ s : List Byte, (∀ c ∈ s, inAlpha c = true) → b32dec (alpha 0 :: s) = b32dec s

-- Unit PK (41_bit_packer.md).

/-- R132 (with R130), the timestamp tested first (R223): PACK. -/
def Obligations.PackJoinsFields : Prop :=
  encode .pack = 0x20#8 ∧ ∀ s : State,
    (s.reqTs < 0 ∨ 2 ^ 48 - 1 < s.reqTs →
      exec .pack s = .next (s.finish s.msr Draws.nothing (Response.code .timestampOutOfRange)))
    ∧ (0 ≤ s.reqTs → s.reqTs ≤ 2 ^ 48 - 1 → 2 ^ 80 - 1 < s.reqRnd →
      exec .pack s = .next (s.finish s.msr Draws.nothing (Response.code .randomOutOfRange)))
    ∧ (0 ≤ s.reqTs → s.reqTs ≤ 2 ^ 48 - 1 → s.reqRnd ≤ 2 ^ 80 - 1 →
      exec .pack s = .next (s.finish s.msr Draws.nothing
        (Response.value (s.cur.req.ts.extractLsb' 0 48 ++ s.cur.req.rnd.extractLsb' 0 80))))

/-- R133 (with R131): UNPACK. -/
def Obligations.UnpackSplitsFields : Prop :=
  encode .unpack = 0x21#8 ∧ ∀ s : State,
    exec .unpack s = .next (s.finish s.msr Draws.nothing
      (Response.fields ((s.cur.req.val.extractLsb' 80 48).setWidth 64)
        ((s.cur.req.val.extractLsb' 0 80).setWidth 128)))

/-- R134: pack and unpack are inverse. -/
def Obligations.PackUnpackInverse : Prop :=
  (∀ t r : Nat, t ≤ 2 ^ 48 - 1 → r ≤ 2 ^ 80 - 1 → unpackTs (pack t r) = t ∧ unpackRnd (pack t r) = r)
  ∧ ∀ v : Nat, v ≤ 2 ^ 128 - 1 →
      unpackTs v ≤ 2 ^ 48 - 1 ∧ unpackRnd v ≤ 2 ^ 80 - 1 ∧ pack (unpackTs v) (unpackRnd v) = v

/-- R135: values, pairs and canonical strings have one order. -/
def Obligations.ValueOrderIsFieldOrder : Prop :=
  (∀ a b : Nat, a < 2 ^ 128 → b < 2 ^ 128 →
    (a < b ↔ unpackTs a < unpackTs b ∨ (unpackTs a = unpackTs b ∧ unpackRnd a < unpackRnd b))
    ∧ (a < b ↔ lexLt (b32enc a).chars (b32enc b).chars = true))
  ∧ ∀ t1 t2 r1 r2 : Nat, t1 < t2 → t2 ≤ 2 ^ 48 - 1 → r1 ≤ 2 ^ 80 - 1 → r2 ≤ 2 ^ 80 - 1 →
      lexLt (ulidText t1 r1).chars (ulidText t2 r2).chars = true

-- Unit VL (42_validator.md).

/-- R141 (with R140): CHK. -/
def Obligations.ChkTestsLengthAndAlphabet : Prop :=
  encode .chk = 0x30#8 ∧ ∀ s : State,
    exec .chk s = .next (s.finish s.msr Draws.nothing
      (Response.bool (decide (s.reqStr.length = 26 ∧ ∀ c ∈ s.reqStr, fold c ∈ alphabet))))

-- Unit MS (43_monotonic.md).

/-- R152 (with R150, R151): MONO, on each of its paths. -/
def Obligations.MonoAppliesTransition : Prop :=
  encode .mono = 0x40#8 ∧ ∀ s : State,
    (2 ^ 48 - 1 < s.reqTs →
      exec .mono s = .next (s.finish s.msr Draws.nothing (Response.code .timestampOutOfRange)))
    ∧ (s.msr.ts.toNat < s.reqTs → s.reqTs ≤ 2 ^ 48 - 1 →
      exec .mono s = .next (s.finish { ts := s.cur.req.ts.extractLsb' 0 48, rnd := s.cur.ent } (Draws.entropy s.cur)
        (Response.value (s.cur.req.ts.extractLsb' 0 48 ++ s.cur.ent))))
    ∧ (s.reqTs ≤ s.msr.ts.toNat → s.msr.rnd.toNat = 2 ^ 80 - 1 →
      exec .mono s = .next (s.finish s.msr Draws.nothing (Response.code .monotonicOverflow)))
    ∧ (s.reqTs ≤ s.msr.ts.toNat → s.msr.rnd.toNat < 2 ^ 80 - 1 →
      exec .mono s = .next (s.finish { ts := s.msr.ts, rnd := s.msr.rnd + 1 } Draws.nothing
        (Response.value (s.msr.ts ++ (s.msr.rnd + 1)))))

/-- R153 (which the spec marks "derived: from rule R151"): the register follows the result of every successful MONO or GENM, its timestamp never decreases, and within one
timestamp the random field grows by one; a failed command and every other command leave it. -/
def Obligations.RegisterFollowsResult : Prop :=
  ∀ (s t : State) (o : Offer) (rest : List Move) (x : Exchange),
    s.agenda = .present o :: rest → step s = .next t → t.trace.head? = some x →
      (∀ v, x.monoValue? = some v → t.msr.ts.toNat = unpackTs v ∧ t.msr.rnd.toNat = unpackRnd v
        ∧ s.msr.ts.toNat ≤ t.msr.ts.toNat ∧ (t.msr.ts = s.msr.ts → t.msr.rnd.toNat = s.msr.rnd.toNat + 1))
      ∧ (x.monoValue? = none → t.msr = s.msr)

/-- R153, R154 (which the spec marks "derived: from rule R151") as an invariant of every step: the monotonic results since reset are strictly increasing, and `MSR` holds
the last of them. -/
def Obligations.SequenceKeptByEveryStep : Prop :=
  ∀ s t : State, SequenceInv s → step s = .next t → SequenceInv t

/-- The lawfulness of every exchange, as an invariant of every step (R221, R224, R228, R177). -/
def Obligations.TraceKeptByEveryStep : Prop :=
  ∀ s t : State, TraceInv s → step s = .next t → TraceInv t

/-- The invariants hold right after reset, whatever the outside is about to do. -/
def Obligations.InvariantHoldsAtReset : Prop :=
  Inv State.reset ∧ ClockInv State.reset
    ∧ ∀ rest : List Move, Inv (State.afterReset rest) ∧ ClockInv (State.afterReset rest)

/-- R154 (which the spec marks "derived: from rule R151 and 41_bit_packer.md rule R135"): in any run from reset, whatever the requests, their interleaving, the clock and the entropy, the results of the
successful MONO and GENM commands since the last reset strictly increase, and so do the strings GENM returned. -/
def Obligations.MonotonicRunStrictlyIncreases : Prop :=
  ∀ (a : List Move) (k : Nat) (t : State),
    Host.Core.run Sys2Proof.core k { State.reset with agenda := a } = .next t →
      (monoValues t.trace).Pairwise (fun later before => before < later)
      ∧ (∀ v ∈ monoValues t.trace, 0 < v)
      ∧ ((t.trace.filter fun x => x.instr? == some .genm).filterMap (fun x => x.rsp.str)).Pairwise
          (fun later before => lexLt before.chars later.chars = true)

/-- R154 for either policy of MONO_OVF (decision D10; this hardware has `fail`, log entry 7): a transition that succeeds strictly increases the packed register. -/
def Obligations.TransitionIncreasesUnderEitherPolicy : Prop :=
  ∀ (p : MonoOvf) (m m' : Msr) (now : Int) (e : Rand) (used : Bool),
    monoStep p m now e = .moved m' used → m.packed < m'.packed

/-- R155: after a successful MONO or GENM that left the register in whatever state `u` has it, the next MONO or GENM whose
candidate is not past the stored timestamp gives the value one greater, with the same timestamp and the random field one
greater. -/
def Obligations.SameMillisecondAddsOne : Prop :=
  ∀ (s t u : State) (before next : Offer) (a b : List Move) (x : Exchange) (v : Nat) (c : Int),
    s.agenda = .present before :: a → step s = .next t → t.trace.head? = some x → x.monoValue? = some v →
    u.msr = t.msr → u.agenda = .present next :: b → next.candidate? = some c → c ≤ u.msr.ts.toNat →
    u.msr.rnd.toNat < 2 ^ 80 - 1 →
      ∃ w y, step u = .next w ∧ w.trace.head? = some y ∧ y.monoValue? = some (v + 1)
        ∧ unpackTs (v + 1) = unpackTs v ∧ unpackRnd (v + 1) = unpackRnd v + 1

/-- R260 (which the spec marks "derived: from 43_monotonic.md rule R151") as an invariant of every step: the stored timestamp is never behind a clock value that a successful GENM saw. -/
def Obligations.MonotonicTimestampCoversClocks : Prop :=
  ∀ s t : State, ClockInv s → step s = .next t → ClockInv t

/-- R157, R170, R172, R230: exactly when a command takes a word of entropy, and that it is the word on offer. -/
def Obligations.EntropyTakenExactlyWhenUsed : Prop :=
  ∀ (i : Instr) (s t : State) (d : Draws), exec i s = .next t → t.lastDraws = some d →
    (TakesEntropy s i → d.ent = some s.cur.ent) ∧ (¬ TakesEntropy s i → d.ent = none)

/-- R156 (d), R256 (which the spec marks as derived from R151): once the random field is exhausted, nothing moves the register while every monotonic candidate is at
most the stored timestamp and no reset comes, however long that lasts. -/
def Obligations.ExhaustionPersists : Prop :=
  ∀ (os : List Offer) (s t : State) (k : Nat),
    s.agenda = os.map Move.present → s.msr.rnd.toNat = 2 ^ 80 - 1 →
    (∀ o ∈ os, ∀ c, o.candidate? = some c → c ≤ s.msr.ts.toNat) →
    Host.Core.run Sys2Proof.core k s = .next t →
      t.msr = s.msr ∧ monoValues t.trace = monoValues s.trace

-- Unit EN (44_engine.md).

/-- R170: GEN. -/
def Obligations.GenRendersClockAndEntropy : Prop :=
  encode .gen = 0x50#8 ∧ ∀ s : State, ∃ t, Shows t (ulidBits s.cur.now s.cur.ent)
    ∧ exec .gen s = .next (s.finish s.msr (Draws.both s.cur) (Response.text t))

/-- R171: GENM, on each of its paths. -/
def Obligations.GenmAppliesTransition : Prop :=
  encode .genm = 0x51#8 ∧ ∀ s : State,
    (s.msr.ts.toNat < s.nowValue → ∃ t, Shows t (ulidBits s.cur.now s.cur.ent)
      ∧ exec .genm s = .next (s.finish { ts := s.cur.now, rnd := s.cur.ent } (Draws.both s.cur) (Response.text t)))
    ∧ (s.nowValue ≤ s.msr.ts.toNat → s.msr.rnd.toNat = 2 ^ 80 - 1 →
      exec .genm s = .next (s.finish s.msr (Draws.clock s.cur) (Response.code .monotonicOverflow)))
    ∧ (s.nowValue ≤ s.msr.ts.toNat → s.msr.rnd.toNat < 2 ^ 80 - 1 → ∃ t, Shows t (ulidBits s.msr.ts (s.msr.rnd + 1))
      ∧ exec .genm s = .next (s.finish { ts := s.msr.ts, rnd := s.msr.rnd + 1 } (Draws.clock s.cur)
          (Response.text t)))

/-- R171: MONO and GENM make the same transition: on one candidate they leave one register value, and GENM's string is the
encoding of MONO's value. -/
def Obligations.MonoAndGenmShareOneTransition : Prop :=
  ∀ s : State, s.reqTs = s.nowValue →
    ∃ t u rt ru, exec .mono s = .next t ∧ exec .genm s = .next u ∧ t.msr = u.msr
      ∧ t.lastRsp = some rt ∧ u.lastRsp = some ru ∧ rt.err = ru.err
      ∧ rt.val.map (·.toNat) = ru.str.map (fun x => b32dec x.chars)

/-- R172: GENTS. -/
def Obligations.GentsRendersGivenTimestamp : Prop :=
  encode .gents = 0x52#8 ∧ ∀ s : State,
    (s.reqTs < 0 ∨ 2 ^ 48 - 1 < s.reqTs →
      exec .gents s = .next (s.finish s.msr Draws.nothing (Response.code .invalidTimestamp)))
    ∧ (0 ≤ s.reqTs → s.reqTs ≤ 2 ^ 48 - 1 → ∃ t, Shows t (ulidBits (s.cur.req.ts.extractLsb' 0 48) s.cur.ent)
      ∧ exec .gents s = .next (s.finish s.msr (Draws.entropy s.cur) (Response.text t)))

/-- R173: ISVALID is well-formedness; and every string for which it answers 1 is one that DEC decodes, R173's sentence "so
"decode does not raise" is true of every well-formed string", which the spec marks "derived: from 42_validator.md rule R140
and 40_base32_codec.md rule R113". -/
def Obligations.IsvalidTestsLengthAndAlphabet : Prop :=
  encode .isvalid = 0x53#8 ∧ ∀ s : State,
    exec .isvalid s = .next (s.finish s.msr Draws.nothing
      (Response.bool (decide (s.reqStr.length = 26 ∧ ∀ c ∈ s.reqStr, fold c ∈ alphabet))))
    ∧ ((s.reqStr.length = 26 ∧ ∀ c ∈ s.reqStr, fold c ∈ alphabet) →
        ∃ t r, exec .dec s = .next t ∧ t.lastRsp = some r ∧ r.err = 0)

/-- R174: XTS; only the first ten characters matter to the result. -/
def Obligations.XtsReadsTimestamp : Prop :=
  encode .xts = 0x54#8 ∧ ∀ s : State,
    (wellFormedText s.reqStr = false →
      exec .xts s = .next (s.finish s.msr Draws.nothing (Response.code .invalidFormat)))
    ∧ (wellFormedText s.reqStr = true → ∃ v : TsField, v.toNat = digitSum s.reqStr 0 10
      ∧ exec .xts s = .next (s.finish s.msr Draws.nothing (Response.time v)))

/-- R175: XRND; only the last sixteen characters matter to the result. -/
def Obligations.XrndReadsRandom : Prop :=
  encode .xrnd = 0x55#8 ∧ ∀ s : State,
    (wellFormedText s.reqStr = false →
      exec .xrnd s = .next (s.finish s.msr Draws.nothing (Response.code .invalidFormat)))
    ∧ (wellFormedText s.reqStr = true → ∃ v : RndField, v.toNat = digitSum s.reqStr 10 16
      ∧ exec .xrnd s = .next (s.finish s.msr Draws.nothing (Response.random v)))

/-- R176: NORM is the upper-case form of the string. -/
def Obligations.NormFoldsToUpperCase : Prop :=
  encode .norm = 0x56#8 ∧ ∀ s : State,
    (wellFormedText s.reqStr = false →
      exec .norm s = .next (s.finish s.msr Draws.nothing (Response.code .invalidFormat)))
    ∧ (wellFormedText s.reqStr = true → ∃ t : Text, t.chars = s.reqStr.map fold
      ∧ exec .norm s = .next (s.finish s.msr Draws.nothing (Response.text t)))

/-- R178: a well-formed string whose first digit is 8 or more: CHK and ISVALID answer 1, XTS gives a timestamp of 49 or 50
bits, XRND and NORM succeed, TOUUID fails with `ValueOverflow`. -/
def Obligations.StringsAboveRange : Prop :=
  ∀ s : State, wellFormedText s.reqStr = true → 8 ≤ digit (s.reqStr.getD 0 0) →
    2 ^ 128 ≤ b32dec s.reqStr ∧ b32dec s.reqStr ≤ 2 ^ 130 - 1
    ∧ exec .chk s = .next (s.finish s.msr Draws.nothing (Response.bool true))
    ∧ exec .isvalid s = .next (s.finish s.msr Draws.nothing (Response.bool true))
    ∧ (∃ v : TsField, 2 ^ 48 ≤ v.toNat ∧ v.toNat ≤ 2 ^ 50 - 1 ∧ v.toNat = b32dec s.reqStr >>> 80
        ∧ exec .xts s = .next (s.finish s.msr Draws.nothing (Response.time v)))
    ∧ (∃ v : RndField, v.toNat = b32dec s.reqStr % 2 ^ 80
        ∧ exec .xrnd s = .next (s.finish s.msr Draws.nothing (Response.random v)))
    ∧ (∃ t : Text, t.chars = s.reqStr.map fold
        ∧ exec .norm s = .next (s.finish s.msr Draws.nothing (Response.text t)))
    ∧ exec .touuid s = .next (s.finish s.msr Draws.nothing (Response.code .valueOverflow))

/-- R177: the format of every string that ENC, GEN, GENM, GENTS, NORM or FROMUUID writes; those of the generators and of
FROMUUID start with a digit below 8. -/
def Obligations.GeneratedStringsAreCanonical : Prop :=
  ∀ (i : Instr) (s t : State) (r : Response) (w : Text),
    i ∈ [Instr.enc, .gen, .genm, .gents, .norm, .fromuuid] →
    exec i s = .next t → t.lastRsp = some r → r.str = some w →
      Canonical w ∧ wellFormedText w.chars = true
        ∧ (i ≠ .enc → i ≠ .norm → digit (w.chars.getD 0 0) < 8)

/-- R258 (which the spec marks "derived: from 44_engine.md rules R170 and R172"): two GEN or GENTS commands with one timestamp return equal strings exactly when their entropy words are equal. -/
def Obligations.StringsDifferExactlyWithEntropy : Prop :=
  ∀ (i j : Instr) (s t : State) (ts : Millis), StampedAt i s ts → StampedAt j t ts →
    ∃ s' t' x y, exec i s = .next s' ∧ exec j t = .next t'
      ∧ s'.lastRsp = some (Response.text x) ∧ t'.lastRsp = some (Response.text y)
      ∧ (x = y ↔ s.cur.ent = t.cur.ent)

/-- R179: XTS and XRND of a string that GENTS, GEN or GENM made give the two fields it was made of. -/
def Obligations.ExtractionUndoesGeneration : Prop :=
  ∀ (i : Instr) (s t u : State) (r : Response) (w : Text), i = .gents ∨ i = .gen ∨ i = .genm →
    exec i s = .next t → t.lastRsp = some r → r.str = some w → u.cur.req.str = w →
      ∃ (ts : Millis) (e : Rand),
        (i = .gents → (ts.toNat : Int) = s.reqTs ∧ e = s.cur.ent)
        ∧ (i = .gen → ts = s.cur.now ∧ e = s.cur.ent)
        ∧ (i = .genm → ts = t.msr.ts ∧ e = t.msr.rnd)
        ∧ exec .xts u = .next (u.finish u.msr Draws.nothing (Response.time (ts.setWidth 64)))
        ∧ exec .xrnd u = .next (u.finish u.msr Draws.nothing (Response.random (e.setWidth 128)))

-- Unit UU (45_uuid_bridge.md).

/-- R202 (with R200), the format tested first (R223): TOUUID. -/
def Obligations.TouuidWritesUuidText : Prop :=
  encode .touuid = 0x60#8 ∧ ∀ s : State,
    (wellFormedText s.reqStr = false →
      exec .touuid s = .next (s.finish s.msr Draws.nothing (Response.code .invalidFormat)))
    ∧ (wellFormedText s.reqStr = true → 8 ≤ digit (s.reqStr.getD 0 0) →
      exec .touuid s = .next (s.finish s.msr Draws.nothing (Response.code .valueOverflow)))
    ∧ (wellFormedText s.reqStr = true → digit (s.reqStr.getD 0 0) < 8 →
      ∃ (v : Value) (t : Text), v.toNat = digitSum s.reqStr 0 26 ∧ ShowsUuid t v
        ∧ exec .touuid s = .next (s.finish s.msr Draws.nothing (Response.text t)))

/-- R203 (with R201): FROMUUID. -/
def Obligations.FromuuidReadsUuidText : Prop :=
  encode .fromuuid = 0x61#8 ∧ ∀ s : State,
    (¬ UuidShaped s.reqStr → exec .fromuuid s = .next (s.finish s.msr Draws.nothing (Response.code .invalidUuid)))
    ∧ (UuidShaped s.reqStr →
      ∃ (v : Value) (t : Text),
        v.toNat = ∑ k ∈ Finset.range 32, hexVal ((s.reqStr.filter (· ≠ hyphen)).getD k 0) * 16 ^ (31 - k)
        ∧ Shows t (v.setWidth 130)
        ∧ exec .fromuuid s = .next (s.finish s.msr Draws.nothing (Response.text t)))

/-- R81: the hex tables, by code (the codes are the spec's general knowledge, 93_implementation_defined.md G3, log entry
11): the 22 hex bytes, the value of each, and the lower-case digits that TOUUID writes, `0123456789abcdef` in order. -/
def Obligations.HexTablesAsTabled : Prop :=
  (∀ c : Byte, isHex c = true ↔
    (0x30 ≤ c.toNat ∧ c.toNat ≤ 0x39) ∨ (0x41 ≤ c.toNat ∧ c.toNat ≤ 0x46) ∨ (0x61 ≤ c.toNat ∧ c.toNat ≤ 0x66))
  ∧ ((List.range 256).filter fun n => isHex (BitVec.ofNat 8 n)).length = 22
  ∧ (∀ c : Byte, (0x30 ≤ c.toNat ∧ c.toNat ≤ 0x39 → hexVal c = c.toNat - 0x30)
    ∧ (0x41 ≤ c.toNat ∧ c.toNat ≤ 0x46 → hexVal c = c.toNat - 0x41 + 10)
    ∧ (0x61 ≤ c.toNat ∧ c.toNat ≤ 0x66 → hexVal c = c.toNat - 0x61 + 10))
  ∧ ((List.range 16).map (hexChar .lower) =
    [0x30, 0x31, 0x32, 0x33, 0x34, 0x35, 0x36, 0x37, 0x38, 0x39, 0x61, 0x62, 0x63, 0x64, 0x65, 0x66])

/-- R203 (b), R201: FROMUUID reads hex letters in either case: a string and its lower-case form get one answer. Which
bytes are letters is the spec's general knowledge (log entry 11). -/
def Obligations.FromuuidIgnoresCase : Prop :=
  ∀ s t : State, t.reqStr = s.reqStr.map lowerCase →
    ∃ s' t' r, exec .fromuuid s = .next s' ∧ exec .fromuuid t = .next t' ∧ s'.lastRsp = some r ∧ t'.lastRsp = some r

/-- R204 (which the spec marks "derived: from rules R200 and R201 and 40_base32_codec.md rule R114"): the two round trips of
the bridge. -/
def Obligations.UuidRoundTrip : Prop :=
  (∀ (s t u : State) (r : Response) (w : Text),
    exec .touuid s = .next t → t.lastRsp = some r → r.str = some w → u.cur.req.str = w →
      uuidParse w.chars = some (b32dec s.reqStr)
      ∧ ∃ x : Text, x.chars = s.reqStr.map fold
        ∧ exec .fromuuid u = .next (u.finish u.msr Draws.nothing (Response.text x)))
  ∧ ∀ (s t u : State) (r : Response) (w : Text),
    exec .fromuuid s = .next t → t.lastRsp = some r → r.str = some w → u.cur.req.str = w →
      uuidParse s.reqStr = some (b32dec w.chars)
      ∧ ∃ (v : Value) (x : Text), v.toNat = b32dec w.chars ∧ ShowsUuid x v
        ∧ exec .touuid u = .next (u.finish u.msr Draws.nothing (Response.text x))
        ∧ (x.chars = s.reqStr ↔ s.reqStr.length = 36 ∧ s.reqStr.map lowerCase = s.reqStr)

-- Failures and dependence (60_exceptions.md, 10_state.md).

/-- R221: the ten codes. -/
def Obligations.FailureCodesAsTabled : Prop :=
  ErrKind.none.code = 0 ∧ ErrKind.invalidFormat.code = 1 ∧ ErrKind.invalidCharacter.code = 2
  ∧ ErrKind.valueOverflow.code = 3 ∧ ErrKind.invalidTimestamp.code = 4 ∧ ErrKind.invalidUuid.code = 5
  ∧ ErrKind.monotonicOverflow.code = 6 ∧ ErrKind.timestampOutOfRange.code = 7 ∧ ErrKind.randomOutOfRange.code = 8
  ∧ ErrKind.illegalCommand.code = 9 ∧ ∀ a b : ErrKind, a.code = b.code → a = b

/-- R222: each of the fifteen commands fails exactly under the conditions of the table, with the kind given there, and a
word that is not in the map fails with `IllegalCommand`. -/
def Obligations.FailureTable : Prop :=
  (∀ (i : Instr) (s : State), (∃ k, FailsWith s i k)
    ∧ ∀ k, FailsWith s i k → ∃ t r, exec i s = .next t ∧ t.lastRsp = some r ∧ r.err = k.code)
  ∧ ∀ s : State, (∀ i, s.commandWord ≠ encode i) →
      ∃ t r, runCommand s = .next t ∧ t.lastRsp = some r ∧ r.err = ErrKind.illegalCommand.code

/-- R224: what a failing command does, whichever it is. -/
def Obligations.FailureChangesNothingElse : Prop :=
  ∀ (s t : State) (r : Response), runCommand s = .next t → t.lastRsp = some r → r.err ≠ 0 →
    ∃ k clock, k ≠ ErrKind.none ∧ t = { s with
      trace := { who := s.cur.who, req := s.cur.req, draws := { now := clock, ent := none },
                 rsp := { err := k.code, b := none, ts := none, rnd := none, val := none, num := none, str := none } }
               :: s.trace }

/-- R225: after a failure the next command behaves as if the failed one had never been issued. -/
def Obligations.FailedCommandLeavesNoTrace : Prop :=
  ∀ (s t : State) (o next : Offer) (rest : List Move) (r : Response),
    s.agenda = .present o :: .present next :: rest → step s = .next t → t.lastRsp = some r → r.err ≠ 0 →
      ∃ u v, step t = .next u ∧ step { s with agenda := .present next :: rest } = .next v
        ∧ u.msr = v.msr ∧ u.cur = v.cur ∧ u.agenda = v.agenda ∧ u.trace.head? = v.trace.head?

/-- R22, R24, R60 (c), R231: what a command answers, and what it makes of `MSR` where it may write it, depends only on the
request fields, ports and state of its row of R24: not on an ignored field, not on who issued it, not on earlier
commands. -/
def Obligations.AnswerDependsOnlyOnWhatIsRead : Prop :=
  ∀ (i : Instr) (s t : State), AgreeOn (readsOf i) s t →
    ∃ s' t', exec i s = .next s' ∧ exec i t = .next t' ∧ s'.lastRsp = t'.lastRsp
      ∧ (writesMsr i = true → s'.msr = t'.msr)
end

