-- ==== Sys2Proof/Laws/State.lean ====
section
/-! SUPPORT. One lemma per field of the state and shared update of it, so that no proof unfolds a record update. -/

namespace Sys2Proof.Machine

section
variable (s : State) (m : Msr) (d : Draws) (r : Response) (o : Offer) (rest : List Move) (w : CommandWord)

@[simp] theorem State.finish_msr : (s.finish m d r).msr = m := rfl
@[simp] theorem State.finish_cur : (s.finish m d r).cur = s.cur := rfl
@[simp] theorem State.finish_agenda : (s.finish m d r).agenda = s.agenda := rfl
@[simp] theorem State.finish_trace :
    (s.finish m d r).trace = { who := s.cur.who, req := s.cur.req, draws := d, rsp := r } :: s.trace := rfl
@[simp] theorem State.finish_lastRsp : (s.finish m d r).lastRsp = some r := rfl
@[simp] theorem State.finish_lastDraws : (s.finish m d r).lastDraws = some d := rfl

@[simp] theorem State.accept_msr : (s.accept o rest).msr = s.msr := rfl
@[simp] theorem State.accept_cur : (s.accept o rest).cur = o := rfl
@[simp] theorem State.accept_trace : (s.accept o rest).trace = s.trace := rfl
@[simp] theorem State.accept_agenda : (s.accept o rest).agenda = rest := rfl
@[simp] theorem State.accept_commandWord : (s.accept o rest).commandWord = o.req.cmd := rfl

@[simp] theorem State.afterReset_msr : (State.afterReset rest).msr = { ts := 0, rnd := 0 } := rfl
@[simp] theorem State.afterReset_trace : (State.afterReset rest).trace = [] := rfl
@[simp] theorem State.afterReset_agenda : (State.afterReset rest).agenda = rest := rfl

@[simp] theorem State.withNextWord_msr : (s.withNextWord w).msr = s.msr := rfl
@[simp] theorem State.withNextWord_cur : (s.withNextWord w).cur = s.cur := rfl
@[simp] theorem State.withNextWord_trace : (s.withNextWord w).trace = s.trace := rfl
@[simp] theorem State.withNextWord_agenda : (s.withNextWord w).agenda =
    .present { s.cur with req := { s.cur.req with cmd := w } } :: s.agenda := rfl

end

section
variable (k : ErrKind) (p : Bool) (t : Text) (v : Value)

@[simp] theorem Response.code_err : (Response.code k).err = k.code := rfl
@[simp] theorem Response.code_written : (Response.code k).written = Writes.nothing := rfl
@[simp] theorem Response.bool_err : (Response.bool p).err = 0 := rfl
@[simp] theorem Response.bool_b : (Response.bool p).b = some p := rfl
@[simp] theorem Response.text_err : (Response.text t).err = 0 := rfl
@[simp] theorem Response.text_str : (Response.text t).str = some t := rfl
@[simp] theorem Response.value_err : (Response.value v).err = 0 := rfl
@[simp] theorem Response.value_val : (Response.value v).val = some v := rfl

@[simp] theorem Response.number_err (n : NumField) : (Response.number n).err = 0 := rfl
@[simp] theorem Response.number_num (n : NumField) : (Response.number n).num = some n := rfl
@[simp] theorem Response.time_err (x : TsField) : (Response.time x).err = 0 := rfl
@[simp] theorem Response.time_ts (x : TsField) : (Response.time x).ts = some x := rfl
@[simp] theorem Response.random_err (x : RndField) : (Response.random x).err = 0 := rfl
@[simp] theorem Response.random_rnd (x : RndField) : (Response.random x).rnd = some x := rfl
@[simp] theorem Response.fields_err (x : TsField) (y : RndField) : (Response.fields x y).err = 0 := rfl
@[simp] theorem Response.fields_ts (x : TsField) (y : RndField) : (Response.fields x y).ts = some x := rfl
@[simp] theorem Response.fields_rnd (x : TsField) (y : RndField) : (Response.fields x y).rnd = some y := rfl

end

end Sys2Proof.Machine
end

