-- ==== Sys2Proof/Laws/Text.lean ====
section
/-! SUPPORT. The small laws of the alphabet, the codec, the validator and the packer. -/

namespace Sys2Proof.Machine

theorem digit_alpha : ∀ d < 32, digit (alpha d) = d := by decide

theorem alpha_mem_alphabet : ∀ d < 32, alpha d ∈ alphabet := by decide

/-- The codes of the alphabet increase with the digit value (R76). -/
theorem alpha_lt_alpha : ∀ a < 32, ∀ b < 32, (alpha a).toNat < (alpha b).toNat ↔ a < b := by decide

theorem inAlpha_iff_fold_mem (c : Byte) : inAlpha c = true ↔ fold c ∈ alphabet := by
  unfold inAlpha
  rw [List.any_eq_true]
  constructor
  · rintro ⟨d, hd, h⟩
    rw [← beq_iff_eq.mp h]
    exact alpha_mem_alphabet d (List.mem_range.mp hd)
  · intro h
    obtain ⟨d, hd, hc⟩ := List.mem_iff_getElem.mp h
    refine ⟨d, List.mem_range.mpr hd, beq_iff_eq.mpr ?_⟩
    rw [← hc]
    exact (List.getElem_eq_getD (h := hd) 0).symm

theorem wellFormedText_iff (s : List Byte) :
    wellFormedText s = true ↔ s.length = 26 ∧ ∀ c ∈ s, inAlpha c = true := by
  simp [wellFormedText]

theorem b32Digit_eq (n i : Nat) : b32Digit n i = n / 2 ^ (5 * (25 - i)) % 32 := by
  rw [b32Digit, Nat.shiftRight_eq_div_pow]
  exact Nat.and_two_pow_sub_one_eq_mod _ 5

theorem b32Digit_lt (n i : Nat) : b32Digit n i < 32 := by
  rw [b32Digit_eq]
  exact Nat.mod_lt _ (by decide)

@[simp] theorem b32enc_length (n : Nat) : (b32enc n).chars.length = 26 := by simp [b32enc]

theorem b32enc_getElem? (n : Nat) {i : Nat} (h : i < 26) : (b32enc n).chars[i]? = some (alpha (b32Digit n i)) := by
  simp [b32enc, h]

theorem b32enc_canonical (n : Nat) : Canonical (b32enc n) := by
  refine ⟨b32enc_length n, fun c hc => ?_⟩
  simp only [b32enc, List.mem_map] at hc
  obtain ⟨i, -, rfl⟩ := hc
  exact alpha_mem_alphabet _ (b32Digit_lt n i)

@[simp] theorem uuidText_length (uc : UuidCase) (v : Nat) : (uuidText uc v).chars.length = 36 := by
  simp [uuidText, hexDigits]

/-- `pack` as arithmetic (R130: the `|` and a `+` give the same number). -/
theorem pack_eq {t r : Nat} (h : r < 2 ^ 80) : pack t r = t * 2 ^ 80 + r := by
  rw [pack, Nat.shiftLeft_eq, Nat.mul_comm, ← Nat.two_pow_add_eq_or_of_lt h]

theorem unpackTs_eq (v : Nat) : unpackTs v = v / 2 ^ 80 := Nat.shiftRight_eq_div_pow v 80

theorem unpackRnd_eq (v : Nat) : unpackRnd v = v % 2 ^ 80 := Nat.and_two_pow_sub_one_eq_mod v 80

theorem Msr.packed_eq (m : Msr) : m.packed = m.ts.toNat * 2 ^ 80 + m.rnd.toNat := pack_eq m.rnd.isLt

theorem Msr.packed_lt (m : Msr) : m.packed < 2 ^ 128 := by
  rw [m.packed_eq]
  have := m.ts.isLt
  have := m.rnd.isLt
  omega

end Sys2Proof.Machine
end

