-- ==== Sys2Proof/Laws/Codec.lean ====
section
/-! SUPPORT. Positional values: what a digit of a string is, what its base-32 value is made of and how large it is
(40_base32_codec.md R111), and the two layouts of a value read as arithmetic (30_encoding.md R78, R79). -/

namespace Sys2Proof.Machine

@[simp] theorem config_tsMax : Config.tsMax = 2 ^ 48 - 1 := rfl
@[simp] theorem config_rndMax : Config.rndMax = 2 ^ 80 - 1 := rfl
@[simp] theorem config_encCap : Config.encCap = 130 := rfl
@[simp] theorem config_ulidLen : Config.ulidLen = 26 := rfl

theorem digit_lt (c : Byte) : digit c < 32 := by
  unfold digit
  cases h : (List.range 32).find? (fun d => alpha d == fold c) with
  | none => simp
  | some d => simpa using List.mem_range.mp (List.mem_of_find?_eq_some h)

/-- The symbol of a character's digit is the character in upper case (R77). -/
theorem alpha_digit {c : Byte} (h : inAlpha c = true) : alpha (digit c) = fold c := by
  unfold digit
  cases hf : (List.range 32).find? (fun d => alpha d == fold c) with
  | none =>
    rw [List.find?_eq_none] at hf
    simp only [inAlpha, List.any_eq_true] at h
    obtain ⟨d, hd, he⟩ := h
    exact absurd he (by simpa using hf d hd)
  | some d => simpa using List.find?_some hf

theorem b32dec_foldl (s : List Byte) (a : Nat) :
    s.foldl (fun acc c => acc * 32 + digit c) a = a * 32 ^ s.length + b32dec s := by
  induction s generalizing a with
  | nil => simp [b32dec]
  | cons c s ih =>
    simp only [b32dec, List.foldl_cons, List.length_cons]
    rw [ih, ih (0 * 32 + _)]
    simp
    ring

theorem b32dec_cons (c : Byte) (s : List Byte) : b32dec (c :: s) = digit c * 32 ^ s.length + b32dec s := by
  rw [b32dec, List.foldl_cons, b32dec_foldl]
  simp

theorem b32dec_append (s t : List Byte) : b32dec (s ++ t) = b32dec s * 32 ^ t.length + b32dec t := by
  rw [b32dec, List.foldl_append, b32dec_foldl]
  rfl

theorem b32dec_lt (s : List Byte) : b32dec s < 32 ^ s.length := by
  induction s with
  | nil => simp [b32dec]
  | cons c s ih =>
    rw [b32dec_cons, List.length_cons, pow_succ]
    have := digit_lt c
    nlinarith [Nat.pos_of_ne_zero (pow_ne_zero s.length (show (32 : Nat) ≠ 0 by norm_num))]

/-- The value as a sum over the digits (R111). -/
theorem b32dec_eq_digitSum (s : List Byte) : b32dec s = digitSum s 0 s.length := by
  induction s with
  | nil => simp [b32dec, digitSum]
  | cons c s ih =>
    rw [b32dec_cons, ih, digitSum, digitSum, List.length_cons, Finset.sum_range_succ', add_comm]
    congr 1
    refine Finset.sum_congr rfl fun i _ => ?_
    rw [Nat.zero_add, Nat.zero_add, List.getD_cons_succ, show s.length + 1 - 1 - (i + 1) = s.length - 1 - i by omega]

/-- Digit `i` of a string is one base-32 digit of its value. -/
theorem b32dec_div_mod (s : List Byte) :
    ∀ i < s.length, b32dec s / 32 ^ (s.length - 1 - i) % 32 = digit (s.getD i 0) := by
  induction s with
  | nil => simp
  | cons c s ih =>
    intro i hi
    rw [b32dec_cons]
    have hl := b32dec_lt s
    have hd := digit_lt c
    cases i with
    | zero =>
      simp only [List.length_cons, Nat.add_sub_cancel, Nat.sub_zero, List.getD_cons_zero]
      rw [mul_comm, Nat.mul_add_div (by positivity), Nat.div_eq_of_lt hl, Nat.add_zero, Nat.mod_eq_of_lt hd]
    | succ i =>
      simp only [List.length_cons, List.getD_cons_succ] at hi ⊢
      have hi' : i < s.length := by omega
      rw [← ih i hi', show s.length + 1 - 1 - (i + 1) = s.length - 1 - i by omega]
      have split : digit c * 32 ^ s.length = 32 ^ (s.length - 1 - i) * (digit c * 32 ^ (i + 1)) := by
        conv_lhs => rw [show s.length = s.length - 1 - i + (i + 1) by omega, pow_add]
        ring
      rw [split, Nat.mul_add_div (by positivity), pow_succ, ← mul_assoc, mul_comm _ 32, Nat.mul_add_mod]

/-- A string of 26 digits is a timestamp part and a random part, below 2^50 and 2^80 (R174, R175, R178). -/
theorem b32dec_split {s : List Byte} (h : s.length = 26) :
    b32dec s = digitSum s 0 10 * 2 ^ 80 + digitSum s 10 16 ∧ digitSum s 0 10 < 2 ^ 50 ∧ digitSum s 10 16 < 2 ^ 80 := by
  have e : s.take 10 ++ s.drop 10 = s := List.take_append_drop 10 s
  have l1 : (s.take 10).length = 10 := by rw [List.length_take]; omega
  have l2 : (s.drop 10).length = 16 := by rw [List.length_drop]; omega
  have high : digitSum s 0 10 = b32dec (s.take 10) := by
    rw [b32dec_eq_digitSum, l1]
    refine Finset.sum_congr rfl fun i hi => ?_
    rw [List.getD_eq_getElem?_getD, List.getD_eq_getElem?_getD,
      List.getElem?_take_of_lt (by simpa using Finset.mem_range.mp hi)]
  have low : digitSum s 10 16 = b32dec (s.drop 10) := by
    rw [b32dec_eq_digitSum, l2]
    refine Finset.sum_congr rfl fun i hi => ?_
    rw [List.getD_eq_getElem?_getD, List.getD_eq_getElem?_getD, List.getElem?_drop, Nat.zero_add]
  have c1 := b32dec_lt (s.take 10)
  have c2 := b32dec_lt (s.drop 10)
  have d := b32dec_append (s.take 10) (s.drop 10)
  rw [e, l2] at d
  rw [l1] at c1
  rw [l2] at c2
  rw [high, low, d]
  norm_num at c1 c2 ⊢
  omega

/-- The first digit of 26 says whether the value is a ULID value (R178, R202). -/
theorem first_digit {s : List Byte} (h : s.length = 26) : 8 ≤ digit (s.getD 0 0) ↔ 2 ^ 128 ≤ b32dec s := by
  have d := b32dec_div_mod s 0 (by omega)
  have l := b32dec_lt s
  rw [h] at d l
  rw [← d]
  norm_num at l ⊢
  omega

theorem b32enc_shows {n : Nat} {v : BitVec 130} (h : v.toNat = n) : Shows (b32enc n) v := by
  refine ⟨by simp, fun i hi => ?_⟩
  rw [b32enc_getElem? _ hi]
  simp [b32Digit_eq, BitVec.extractLsb'_toNat, h, Nat.shiftRight_eq_div_pow]

theorem ulidBits_toNat (t : Millis) (r : Rand) : (ulidBits t r).toNat = t.toNat * 2 ^ 80 + r.toNat := by
  unfold ulidBits
  rw [BitVec.toNat_append, BitVec.toNat_append, ← Nat.shiftLeft_add_eq_or_of_lt r.isLt]
  simp [Nat.shiftLeft_eq]

theorem tsOutOfRange_iff (t : Int) : tsOutOfRange t = true ↔ t < 0 ∨ 2 ^ 48 - 1 < t := by
  simp [tsOutOfRange]

theorem tsOutOfRange_eq_false (t : Int) : tsOutOfRange t = false ↔ 0 ≤ t ∧ t ≤ 2 ^ 48 - 1 := by
  simp [tsOutOfRange]

/-- The low 48 bits of a timestamp operand that is not negative (R22). -/
theorem ofNat_toInt_toNat (v : TsField) (h : 0 ≤ v.toInt) : BitVec.ofNat 48 v.toInt.toNat = v.extractLsb' 0 48 := by
  apply BitVec.eq_of_toNat_eq
  have : v.toInt.toNat = v.toNat := by
    rw [BitVec.toInt_eq_toNat_cond] at *
    split
    · simp_all
    · simp_all
      omega
  rw [this]
  simp

theorem wellFormedText_eq_decide (s : List Byte) :
    wellFormedText s = decide (s.length = 26 ∧ ∀ c ∈ s, fold c ∈ alphabet) := by
  rw [Bool.eq_iff_iff, wellFormedText_iff, decide_eq_true_iff]
  simp only [inAlpha_iff_fold_mem]

end Sys2Proof.Machine
end

