-- ==== Sys2Proof/Laws/Ops.lean ====
section
/-! SUPPORT. What each shared operation can do, said once: how a command ends, what a transition of the register can be,
and what a step can be. -/

namespace Sys2Proof.Machine

theorem succeed_eq_next {s t : State} {m : Msr} {d : Draws} {r : Response} :
    succeed s m d r = .next t ↔ t = s.finish m d r := by
  simp only [succeed, Host.Outcome.next.injEq, eq_comm]

theorem raise_eq_next {s t : State} {k : ErrKind} {clock : Option Millis} :
    raise s k clock = .next t ↔ t = s.finish s.msr { now := clock, ent := none } (Response.code k) := by
  simp only [raise, Host.Outcome.next.injEq, eq_comm]

/-- The three cases of the comparison unit (R150). -/
theorem compareTime_cases (now : Int) (ts : Millis) :
    (compareTime now ts = .later ∧ (ts.toNat : Int) < now)
    ∨ (compareTime now ts = .same ∧ now = ts.toNat)
    ∨ (compareTime now ts = .earlier ∧ now < ts.toNat) := by
  unfold compareTime
  split
  · exact .inl ⟨rfl, ‹_›⟩
  · split
    · exact .inr (.inl ⟨rfl, ‹_›⟩)
    · exact .inr (.inr ⟨rfl, by omega⟩)

/-- Everything a transition of this hardware's register can be (R151). -/
theorem monoStep_cases (m : Msr) (now : Int) (e : Rand) :
    (2 ^ 48 - 1 < now ∧ monoStep Config.monoOvf m now e = .failed .timestampOutOfRange)
    ∨ ((m.ts.toNat : Int) < now ∧ now ≤ 2 ^ 48 - 1
        ∧ monoStep Config.monoOvf m now e = .moved { ts := BitVec.ofNat 48 now.toNat, rnd := e } true)
    ∨ (now ≤ m.ts.toNat ∧ m.rnd.toNat = 2 ^ 80 - 1 ∧ monoStep Config.monoOvf m now e = .failed .monotonicOverflow)
    ∨ (now ≤ m.ts.toNat ∧ m.rnd.toNat < 2 ^ 80 - 1
        ∧ monoStep Config.monoOvf m now e = .moved { ts := m.ts, rnd := m.rnd + 1 } false) := by
  have hts := m.ts.isLt
  have hrnd := m.rnd.isLt
  have inc : nextInPeriod Config.monoOvf m e =
      if m.rnd.toNat = 2 ^ 80 - 1 then .failed .monotonicOverflow
      else .moved { ts := m.ts, rnd := m.rnd + 1 } false := rfl
  rcases compareTime_cases now m.ts with ⟨hc, h⟩ | ⟨hc, h⟩ | ⟨hc, h⟩ <;>
    simp only [monoStep, hc, newPeriod, inc, Config.tsMax]
  · split
    · exact .inl ⟨by push_cast at *; omega, rfl⟩
    · exact .inr (.inl ⟨h, by push_cast at *; omega, rfl⟩)
  all_goals
    by_cases hr : m.rnd.toNat = 2 ^ 80 - 1
    · exact .inr (.inr (.inl ⟨by omega, hr, by rw [if_pos hr]⟩))
    · exact .inr (.inr (.inr ⟨by omega, by omega, by rw [if_neg hr]⟩))

/-- Every command ends: with one more exchange, on a register value that only MONO and GENM change. -/
theorem exec_finishes (i : Instr) (s : State) :
    ∃ m d r, exec i s = .next (s.finish m d r) ∧ (writesMsr i = false → m = s.msr) := by
  cases i <;> simp only [exec, writesMsr]
  case enc => unfold execEnc succeed raise; split <;> exact ⟨_, _, _, rfl, fun _ => rfl⟩
  case dec => unfold execDec succeed raise; split <;> exact ⟨_, _, _, rfl, fun _ => rfl⟩
  case pack =>
    unfold execPack succeed raise
    split
    · exact ⟨_, _, _, rfl, fun _ => rfl⟩
    · split <;> exact ⟨_, _, _, rfl, fun _ => rfl⟩
  case unpack => exact ⟨_, _, _, rfl, fun _ => rfl⟩
  case chk => exact ⟨_, _, _, rfl, fun _ => rfl⟩
  case mono => unfold execMono succeed raise; split <;> exact ⟨_, _, _, rfl, fun h => absurd h (by simp)⟩
  case gen => exact ⟨_, _, _, rfl, fun _ => rfl⟩
  case genm => unfold execGenm succeed raise; split <;> exact ⟨_, _, _, rfl, fun h => absurd h (by simp)⟩
  case gents => unfold execGents succeed raise; split <;> exact ⟨_, _, _, rfl, fun _ => rfl⟩
  case isvalid => exact ⟨_, _, _, rfl, fun _ => rfl⟩
  case xts => unfold execXts succeed raise; split <;> exact ⟨_, _, _, rfl, fun _ => rfl⟩
  case xrnd => unfold execXrnd succeed raise; split <;> exact ⟨_, _, _, rfl, fun _ => rfl⟩
  case norm => unfold execNorm succeed raise; split <;> exact ⟨_, _, _, rfl, fun _ => rfl⟩
  case touuid =>
    unfold execTouuid succeed raise
    split
    · split <;> exact ⟨_, _, _, rfl, fun _ => rfl⟩
    · exact ⟨_, _, _, rfl, fun _ => rfl⟩
  case fromuuid => unfold execFromuuid succeed raise; split <;> exact ⟨_, _, _, rfl, fun _ => rfl⟩

/-- A command that ends has failed, with nothing but its code and at most the clock sampled, or has succeeded (R10, R224). -/
theorem exec_outcome {i : Instr} {s t : State} (h : exec i s = .next t) :
    (∃ k clock, k ≠ ErrKind.none ∧ t = s.finish s.msr { now := clock, ent := none } (Response.code k))
    ∨ ∃ m d r, r.err = 0 ∧ t = s.finish m d r := by
  cases i <;> simp only [exec] at h
  case mono =>
    rcases monoStep_cases s.msr s.reqTs s.cur.ent with ⟨_, e⟩ | ⟨_, _, e⟩ | ⟨_, _, e⟩ | ⟨_, _, e⟩ <;>
      simp only [execMono, e, raise_eq_next, succeed_eq_next] at h
    all_goals first | exact .inl ⟨_, _, by decide, h⟩ | exact .inr ⟨_, _, _, rfl, h⟩
  case genm =>
    rcases monoStep_cases s.msr s.nowValue s.cur.ent with ⟨_, e⟩ | ⟨_, _, e⟩ | ⟨_, _, e⟩ | ⟨_, _, e⟩ <;>
      simp only [execGenm, e, raise_eq_next, succeed_eq_next] at h
    all_goals first | exact .inl ⟨_, _, by decide, h⟩ | exact .inr ⟨_, _, _, rfl, h⟩
  all_goals
    simp only [execEnc, execDec, execPack, execUnpack, execChk, execGen, execGents, execIsvalid, execXts, execXrnd,
      execNorm, execTouuid, execFromuuid] at h
    repeat' split at h
    all_goals
      simp only [raise_eq_next, succeed_eq_next] at h
      first | exact .inl ⟨_, _, by decide, h⟩ | exact .inr ⟨_, _, _, rfl, h⟩

/-- What a step can do, by what the outside does next. -/
theorem step_cases {s t : State} (h : step s = .next t) :
    (s.agenda = [] ∧ t = s)
    ∨ (∃ rest, s.agenda = .reset :: rest ∧ t = State.afterReset rest)
    ∨ (∃ o rest i, s.agenda = .present o :: rest ∧ decode Config.hasUuid o.req.cmd = .instr i
        ∧ exec i (s.accept o rest) = .next t)
    ∨ (∃ o rest why, s.agenda = .present o :: rest ∧ decode Config.hasUuid o.req.cmd = .illegal why
        ∧ t = (s.accept o rest).finish s.msr Draws.nothing (Response.code .illegalCommand)) := by
  unfold step at h
  split at h
  case h_1 ha => exact .inl ⟨ha, (Host.Outcome.next.inj h).symm⟩
  case h_2 rest ha => exact .inr (.inl ⟨rest, ha, (Host.Outcome.next.inj h).symm⟩)
  case h_3 o rest ha =>
    unfold runCommand State.decoded at h
    rw [State.accept_commandWord] at h
    split at h
    case h_1 i hi => exact .inr (.inr (.inl ⟨o, rest, i, ha, hi, h⟩))
    case h_2 why hi => exact .inr (.inr (.inr ⟨o, rest, why, ha, hi, raise_eq_next.mp h⟩))

end Sys2Proof.Machine
end

