-- ==== Sys2Proof/Laws/PerInstr.lean ====
section
/-! SUPPORT. Family WordLayout, per instruction: the command's word as the table of 30_encoding.md R72 writes it in binary,
its unit and function fields (R71), and what the decoder makes of it. -/

namespace Sys2Proof.Laws.WordLayout

/-- The word holds the unit and the function of the command, the command is one of this hardware's, and both forms of the
decoder give it back. -/
def Statement (i : Instr) : Prop :=
  (encode i).extractLsb' 4 4 = i.unit.code ∧ (encode i).extractLsb' 0 4 = i.function
    ∧ i.wellFormed Config.hasUuid = true ∧ decode Config.hasUuid (encode i) = .instr i
    ∧ decodeTableWord 8 (encode i).toNat = some i

theorem enc : Statement .enc := by unfold Statement; decide
theorem dec : Statement .dec := by unfold Statement; decide
theorem pack : Statement .pack := by unfold Statement; decide
theorem unpack : Statement .unpack := by unfold Statement; decide
theorem chk : Statement .chk := by unfold Statement; decide
theorem mono : Statement .mono := by unfold Statement; decide
theorem gen : Statement .gen := by unfold Statement; decide
theorem genm : Statement .genm := by unfold Statement; decide
theorem gents : Statement .gents := by unfold Statement; decide
theorem isvalid : Statement .isvalid := by unfold Statement; decide
theorem xts : Statement .xts := by unfold Statement; decide
theorem xrnd : Statement .xrnd := by unfold Statement; decide
theorem norm : Statement .norm := by unfold Statement; decide
theorem touuid : Statement .touuid := by unfold Statement; decide
theorem fromuuid : Statement .fromuuid := by unfold Statement; decide

end Sys2Proof.Laws.WordLayout
end

