-- ==== Sys2Proof/Laws/Uuid.lean ====
section
/-! SUPPORT. The laws of hex text (30_encoding.md R80, R81; 45_uuid_bridge.md R200, R201). -/

namespace Sys2Proof.Machine

theorem hexNumber_foldl (s : List Byte) (a : Nat) :
    s.foldl (fun acc c => acc * 16 + hexVal c) a = a * 16 ^ s.length + hexNumber s := by
  induction s generalizing a with
  | nil => simp [hexNumber]
  | cons c s ih =>
    simp only [hexNumber, List.foldl_cons, List.length_cons]
    rw [ih, ih (0 * 16 + _)]
    simp
    ring

theorem hexNumber_cons (c : Byte) (s : List Byte) :
    hexNumber (c :: s) = hexVal c * 16 ^ s.length + hexNumber s := by
  rw [hexNumber, List.foldl_cons, hexNumber_foldl]
  simp

theorem hexNumber_append (s t : List Byte) :
    hexNumber (s ++ t) = hexNumber s * 16 ^ t.length + hexNumber t := by
  rw [hexNumber, List.foldl_append, hexNumber_foldl]
  rfl

theorem isHex_lowerCase : ∀ c : Byte, isHex (lowerCase c) = isHex c := by decide

theorem hexVal_lowerCase : ∀ c : Byte, isHex c = true → hexVal (lowerCase c) = hexVal c := by decide

theorem lowerCase_eq_hyphen : ∀ c : Byte, lowerCase c = hyphen ↔ c = hyphen := by decide

theorem hexVal_lt : ∀ c : Byte, isHex c = true → hexVal c < 16 := by decide

theorem hexNumber_lt (s : List Byte) (h : ∀ c ∈ s, isHex c = true) : hexNumber s < 16 ^ s.length := by
  induction s with
  | nil => simp [hexNumber]
  | cons c s ih =>
    rw [hexNumber_cons, List.length_cons, pow_succ]
    have := hexVal_lt c (h c (by simp))
    have := ih fun c hc => h c (by simp [hc])
    nlinarith [Nat.pos_of_ne_zero (pow_ne_zero s.length (show (16 : Nat) ≠ 0 by norm_num))]

@[simp] theorem groupedDigits_length (s : List Byte) : (groupedDigits s).length = 32 := by
  simp only [groupedDigits, List.length_map]
  decide

theorem groupedDigits_isHex {s : List Byte} (h : (List.range 36).all (groupedAt s) = true) :
    ∀ c ∈ groupedDigits s, isHex c = true := by
  intro c hc
  simp only [groupedDigits, List.mem_map, List.mem_filter, List.mem_range] at hc
  obtain ⟨i, ⟨hi, hh⟩, rfl⟩ := hc
  have at_i := List.all_eq_true.mp h i (List.mem_range.mpr hi)
  unfold groupedAt at at_i
  rwa [if_neg (by simpa using hh)] at at_i

/-- What a parse can be (R201): failure, or the number of 32 hex digits. -/
theorem uuidParse_cases {s : List Byte} {v : Nat} (h : uuidParse s = some v) :
    ∃ d : List Byte, d.length = 32 ∧ (∀ c ∈ d, isHex c = true) ∧ v = hexNumber d
      ∧ ((s.length = 36 ∧ d = groupedDigits s ∧ (List.range 36).all (groupedAt s) = true) ∨ (s.length = 32 ∧ d = s)) := by
  unfold uuidParse at h
  split at h
  case isTrue h36 =>
    split at h
    case isTrue ok =>
      exact ⟨_, groupedDigits_length s, groupedDigits_isHex ok, (Option.some.inj h).symm, .inl ⟨h36, rfl, ok⟩⟩
    case isFalse => cases h
  case isFalse =>
    split at h
    case isTrue h32 =>
      split at h
      case isTrue ok => exact ⟨s, h32, List.all_eq_true.mp ok, (Option.some.inj h).symm, .inr ⟨h32, rfl⟩⟩
      case isFalse => cases h
    case isFalse => cases h

theorem uuidParse_lt {s : List Byte} {v : Nat} (h : uuidParse s = some v) : v < 2 ^ 128 := by
  obtain ⟨d, dl, dh, rfl, -⟩ := uuidParse_cases h
  have := hexNumber_lt d dh
  rw [dl] at this
  norm_num at this ⊢
  exact this

/-- A string parses exactly when it has one of the two shapes (R201). -/
theorem uuidParse_isSome_iff (s : List Byte) : (uuidParse s).isSome = true ↔ UuidShaped s := by
  unfold UuidShaped uuidParse
  by_cases h36 : s.length = 36
  · have grouped : (List.range 36).all (groupedAt s) = true ↔
        ∀ i < 36, if i = 8 ∨ i = 13 ∨ i = 18 ∨ i = 23 then s[i]? = some hyphen
          else ∃ c, s[i]? = some c ∧ isHex c = true := by
      rw [List.all_eq_true]
      simp only [List.mem_range]
      refine forall_congr' fun i => forall_congr' fun hi => ?_
      have hs : i < s.length := by omega
      simp [groupedAt, hyphenAt, hs]
    simp [h36, grouped]
  · by_cases h32 : s.length = 32
    · simp [h32]
    · simp [h36, h32]

end Sys2Proof.Machine
end

