-- ==== Sys2Proof/Tests/Slice0.lean ====
section
/-! SUPPORT. Tests of one step each, with expected results from the vectors of spec/95_test_vectors.md (their ids stand in
the comments) and words written bit by bit from 30_encoding.md R71 and R72; the well-formedness smoke tests; and for each
obligation with hypotheses a witness `witness_<Name>` that meets them, at the boundaries of each clause. -/

namespace Sys2Proof.Tests

set_option maxRecDepth 8000

open Sys2Proof.Machine

/-- A string operand. -/
def txt (s : String) : Text := Text.ofList (s.toList.map fun c => BitVec.ofNat 8 c.toNat)

/-- A request in which only the string is given. -/
def reqStr (w : CommandWord) (s : String) : Request := { Request.blank with cmd := w, str := txt s }

/-- A request in which only the timestamp is given. -/
def reqTs (w : CommandWord) (t : Int) : Request := { Request.blank with cmd := w, ts := BitVec.ofInt 64 t }

/-- A request of requester 3 with its draws on offer. -/
def offer (q : Request) (now : Millis) (ent : Rand) : Offer := { who := 3, req := q, now := now, ent := ent }

/-- The state in which a request has been accepted, with `MSR` = (ts, rnd). -/
def given (ts : Millis) (rnd : Rand) (o : Offer) : State :=
  { msr := { ts := ts, rnd := rnd }, cur := o, trace := [], agenda := [] }

/-- A string has been presented; `MSR` = (5, 9). -/
def withStr (s : String) : State := given 5 9 (offer (reqStr 0 s) 0 0)

/-- A number has been presented. -/
def withNum (n : Nat) : State := given 5 9 (offer { Request.blank with num := BitVec.ofNat 180 n } 0 0)

/-- A timestamp and a random value have been presented. -/
def withPair (t : Int) (r : Nat) : State :=
  given 5 9 (offer { Request.blank with ts := BitVec.ofInt 64 t, rnd := BitVec.ofNat 128 r } 0 0)

/-- A ULID value has been presented. -/
def withVal (v : Nat) : State := given 5 9 (offer { Request.blank with val := BitVec.ofNat 128 v } 0 0)

/-- A timestamp has been presented, `MSR` = (ts, rnd), the entropy word is `e`. -/
def withTs (ts : Millis) (rnd : Rand) (t : Int) (e : Rand) : State := given ts rnd (offer (reqTs 0 t) 0 e)

/-- The clock reads `now`, `MSR` = (ts, rnd), the entropy word is `e`. -/
def withNow (ts : Millis) (rnd : Rand) (now : Millis) (e : Rand) : State := given ts rnd (offer Request.blank now e)

/-- The response given. -/
def answer : Result → Option Response
  | .next t => t.lastRsp
  | .fault _ => none
  | .refused _ => none

/-- The draws taken. -/
def drawn : Result → Option Draws
  | .next t => t.lastDraws
  | .fault _ => none
  | .refused _ => none

/-- `MSR` afterwards. -/
def register : Result → Option Msr
  | .next t => some t.msr
  | .fault _ => none
  | .refused _ => none

/-- The largest random field, 2^80 - 1. -/
def rndMax : Rand := 0xFFFFFFFFFFFFFFFFFFFF

-- Unit B32.

/-- ENC-10. -/
theorem test_enc_renders : answer (exec .enc (withNum 0x1563E3AB5D3D6764C61EFB99302BD5B))
    = some (Response.text (txt "01ARZ3NDEKTSV4RRFFQ69G5FAV")) := by decide

/-- ENC-14. -/
theorem test_enc_overflow : answer (exec .enc (withNum (2 ^ 130))) = some (Response.code .valueOverflow) := by decide

/-- DEC-13. -/
theorem test_dec_mixed_case : answer (exec .dec (withStr "01arZ3ndEKtsv4RRffq69g5fAv"))
    = some (Response.number 0x1563E3AB5D3D6764C61EFB99302BD5B) := by decide

/-- DEC-27. -/
theorem test_dec_hyphen : answer (exec .dec (withStr "0-1")) = some (Response.code .invalidCharacter) := by decide

-- Unit PK.

/-- PACK-3. -/
theorem test_pack : answer (exec .pack (withPair 1672531200000 0x123456789ABCDEF0123))
    = some (Response.value 0x1856AA0C8000123456789ABCDEF0123) := by decide

/-- PACK-13. -/
theorem test_pack_both_out : answer (exec .pack (withPair (2 ^ 48) (2 ^ 80)))
    = some (Response.code .timestampOutOfRange) := by decide

/-- UNPACK-6. -/
theorem test_unpack : answer (exec .unpack (withVal 0x1563E3AB5D3D6764C61EFB99302BD5B))
    = some (Response.fields 1469922850259 0xD6764C61EFB99302BD5B) := by decide

/-- UNPACK-8. -/
theorem test_unpack_largest : answer (exec .unpack (withVal (2 ^ 128 - 1)))
    = some (Response.fields 281474976710655 0xFFFFFFFFFFFFFFFFFFFF) := by decide

-- Unit VL.

/-- CHK-8. -/
theorem test_chk_lower_case : answer (exec .chk (withStr "01arz3ndektsv4rrffq69g5fav"))
    = some (Response.bool true) := by decide

/-- CHK-17. -/
theorem test_chk_excluded_letter : answer (exec .chk (withStr "01ARZ3NDEKTSV4RRFFQ69G5FAu"))
    = some (Response.bool false) := by decide

-- Unit MS.

/-- MONO-6. -/
theorem test_mono_new_period : answer (exec .mono (withTs 5 0xD 6 0)) = some (Response.value 0x600000000000000000000)
    ∧ register (exec .mono (withTs 5 0xD 6 0)) = some { ts := 6, rnd := 0 } := by decide

/-- MONO-36. -/
theorem test_mono_range_first : answer (exec .mono (withTs 281474976710655 rndMax (2 ^ 48) 0))
    = some (Response.code .timestampOutOfRange) := by decide

-- Unit EN.

/-- GEN-5. -/
theorem test_gen : answer (exec .gen (withNow 5 9 1469922850259 0xD6764C61EFB99302BD5B))
    = some (Response.text (txt "01ARZ3NDEKTSV4RRFFQ69G5FAV")) := by decide

/-- GEN-6. -/
theorem test_gen_largest : answer (exec .gen (withNow 5 9 281474976710655 rndMax))
    = some (Response.text (txt "7ZZZZZZZZZZZZZZZZZZZZZZZZZ")) := by decide

/-- MONO-15. -/
theorem test_genm_clock_back :
    answer (exec .genm (withNow 1672531200000 0x123456789ABCDEF0124 1672531199999 7))
      = some (Response.text (txt "01GNNA1J0004HMASW9NF6YY095"))
    ∧ drawn (exec .genm (withNow 1672531200000 0x123456789ABCDEF0124 1672531199999 7))
      = some { now := some 1672531199999, ent := none } := by decide

/-- MONO-21. -/
theorem test_genm_exhausted : answer (exec .genm (withNow 7 rndMax 7 0)) = some (Response.code .monotonicOverflow)
    ∧ register (exec .genm (withNow 7 rndMax 7 0)) = some { ts := 7, rnd := rndMax } := by decide

/-- GENTS-6. -/
theorem test_gents_largest : answer (exec .gents (withTs 5 9 281474976710655 rndMax))
    = some (Response.text (txt "7ZZZZZZZZZZZZZZZZZZZZZZZZZ")) := by decide

/-- GENTS-8. -/
theorem test_gents_out : answer (exec .gents (withTs 5 9 281474976710656 7)) = some (Response.code .invalidTimestamp)
    ∧ drawn (exec .gents (withTs 5 9 281474976710656 7)) = some { now := none, ent := none } := by decide

/-- ISVALID-5. -/
theorem test_isvalid_above_range : answer (exec .isvalid (withStr "ZZZZZZZZZZZZZZZZZZZZZZZZZZ"))
    = some (Response.bool true) := by decide

/-- ISVALID-4. -/
theorem test_isvalid_27 : answer (exec .isvalid (withStr "000000000000000000000000000"))
    = some (Response.bool false) := by decide

/-- XTS-9. -/
theorem test_xts_50_bits : answer (exec .xts (withStr "ZZZZZZZZZZZZZZZZZZZZZZZZZZ"))
    = some (Response.time 1125899906842623) := by decide

/-- XTS-13. -/
theorem test_xts_bad_character : answer (exec .xts (withStr "01ARZ3NDEKTSV4RRFFQ69G5FAU"))
    = some (Response.code .invalidFormat) := by decide

/-- XRND-2. -/
theorem test_xrnd : answer (exec .xrnd (withStr "01gnna1j0004hmasw9nf6yy093"))
    = some (Response.random 0x123456789ABCDEF0123) := by decide

/-- XRND-12. -/
theorem test_xrnd_27 : answer (exec .xrnd (withStr "01ARZ3NDEKTSV4RRFFQ69G5FAV0"))
    = some (Response.code .invalidFormat) := by decide

/-- NORM-2. -/
theorem test_norm : answer (exec .norm (withStr "01arZ3ndEKtsv4RRffq69g5fAv"))
    = some (Response.text (txt "01ARZ3NDEKTSV4RRFFQ69G5FAV")) := by decide

/-- NORM-6. -/
theorem test_norm_empty : answer (exec .norm (withStr "")) = some (Response.code .invalidFormat) := by decide

-- Unit UU.

/-- TOUUID-5. -/
theorem test_touuid : answer (exec .touuid (withStr "014D2PF2DBSQQG28T5CY4TQKFF"))
    = some (Response.text (txt "01234567-89ab-cdef-0123-456789abcdef")) := by decide

/-- TOUUID-10. -/
theorem test_touuid_format_first : answer (exec .touuid (withStr "8000000000000000000000000U"))
    = some (Response.code .invalidFormat) := by decide

/-- FROMUUID-7. -/
theorem test_fromuuid_mixed_case : answer (exec .fromuuid (withStr "01563E3a-B5d3-D676-4c61-EFB99302bd5b"))
    = some (Response.text (txt "01ARZ3NDEKTSV4RRFFQ69G5FAV")) := by decide

/-- FROMUUID-17. -/
theorem test_fromuuid_hyphen_missing : answer (exec .fromuuid (withStr "01563e3a-b5d3-d676-4c61efb99302bd5b0"))
    = some (Response.code .invalidUuid) := by decide

-- Encoding: the words of R72 in bits, UNIT then FN.

theorem test_decode_enc : decode Config.hasUuid 0b00010000#8 = .instr .enc := by decide
theorem test_decode_dec : decode Config.hasUuid 0b00010001#8 = .instr .dec := by decide
theorem test_decode_pack : decode Config.hasUuid 0b00100000#8 = .instr .pack := by decide
theorem test_decode_unpack : decode Config.hasUuid 0b00100001#8 = .instr .unpack := by decide
theorem test_decode_chk : decode Config.hasUuid 0b00110000#8 = .instr .chk := by decide
theorem test_decode_mono : decode Config.hasUuid 0b01000000#8 = .instr .mono := by decide
theorem test_decode_gen : decode Config.hasUuid 0b01010000#8 = .instr .gen := by decide
theorem test_decode_genm : decode Config.hasUuid 0b01010001#8 = .instr .genm := by decide
theorem test_decode_gents : decode Config.hasUuid 0b01010010#8 = .instr .gents := by decide
theorem test_decode_isvalid : decode Config.hasUuid 0b01010011#8 = .instr .isvalid := by decide
theorem test_decode_xts : decode Config.hasUuid 0b01010100#8 = .instr .xts := by decide
theorem test_decode_xrnd : decode Config.hasUuid 0b01010101#8 = .instr .xrnd := by decide
theorem test_decode_norm : decode Config.hasUuid 0b01010110#8 = .instr .norm := by decide
theorem test_decode_touuid : decode Config.hasUuid 0b01100000#8 = .instr .touuid := by decide
theorem test_decode_fromuuid : decode Config.hasUuid 0b01100001#8 = .instr .fromuuid := by decide

/-- ILL-1 to ILL-11. -/
theorem test_decode_illegal : ∀ w ∈ [0x00#8, 0xFF, 0x12, 0x22, 0x31, 0x41, 0x57, 0x62, 0x70, 0x01, 0x90],
    decode Config.hasUuid w = .illegal (.notInMap w) := by decide

/-- R73: no two rows of the map admit one word. -/
theorem test_rows_do_not_overlap : opcodeMap.Pairwise fun a b => a.pattern ≠ b.pattern ∧ a.mask = b.mask := by decide

/-- ILL-6, as a step. -/
theorem test_step_illegal : answer (step (State.reset.withFetchWord 8 0x41)) = some (Response.code .illegalCommand) := by
  decide

/-- P6, the first command after reset: GENM at clock 0. -/
theorem test_step_first_genm : answer (step (State.reset.withFetchWord 8 0x51))
    = some (Response.text (txt "00000000000000000000000001")) := by decide

-- Well-formedness refuses what it must.

/-- R73: without unit UU its two commands are not commands, and their words are illegal. -/
theorem test_wellFormed_refuses_uuid : Instr.touuid.wellFormed false = false ∧ Instr.fromuuid.wellFormed false = false
    ∧ decode false 0x60#8 = .illegal (.unitAbsent .touuid) ∧ decode false 0x61#8 = .illegal (.unitAbsent .fromuuid) := by
  decide

theorem test_wellFormed_keeps_others : Instr.norm.wellFormed false = true ∧ Instr.touuid.wellFormed true = true := by
  decide

/-- R5, R231: requester 3 does not exist among three requesters. -/
theorem test_move_wellFormed_refuses : (Move.present (offer Request.blank 0 0)).wellFormed 3 = false
    ∧ (Move.present (offer Request.blank 0 0)).wellFormed 4 = true ∧ Move.reset.wellFormed 1 = true := by decide

-- Witnesses: for each obligation with hypotheses, states and operands that meet them.

/-- The request of MONO-1 after reset: `MONO TS=5` with entropy word 9. -/
def monoOffer : Offer := offer (reqTs 0x40 5) 0 9

/-- A GENM with the clock at 5, which finds the timestamp of MONO-1 stored. -/
def genmOffer : Offer := offer { Request.blank with cmd := 0x51 } 5 7

/-- A PACK that fails: its timestamp is 2^48. -/
def badOffer : Offer := offer (reqTs 0x20 (2 ^ 48)) 0 0

/-- Reset, with something about to be presented. -/
def facing (a : List Move) : State := { State.reset with agenda := a }

/-- The state that one step leaves, where it leaves one. -/
def afterStep (s : State) : State :=
  match step s with
  | .next t => t
  | .fault _ => s
  | .refused _ => s

/-- After MONO-1: `MSR` = (5, 9) and one exchange; a GENM is presented. -/
def midRun : State := afterStep (facing [.present monoOffer, .present genmOffer])

theorem witness_CommandWordsDecodeAsTabled : (0x61#8, Instr.fromuuid, "FROMUUID", UnitName.uu) ∈
    [((0x10#8 : CommandWord), Instr.enc, "ENC", UnitName.b32), (0x61#8, .fromuuid, "FROMUUID", .uu)] := by decide

theorem witness_WordHoldsUnitAndFunction : decode Config.hasUuid 0x61#8 = .instr .fromuuid := by decide

/-- 0x57 stands just past unit EN's last word. -/
theorem witness_OtherWordsFailAsIllegal :
    (facing [.present (offer (reqStr 0x57 "") 0 0)]).agenda = [.present (offer (reqStr 0x57 "") 0 0)]
    ∧ ∀ i, (offer (reqStr 0x57 "") 0 0).req.cmd ≠ encode i := by
  refine ⟨rfl, fun i => ?_⟩
  cases i <;> decide

theorem witness_StepRunsDecodedInstruction : (facing [.present monoOffer]).agenda = [.present monoOffer]
    ∧ decode Config.hasUuid monoOffer.req.cmd = .instr .mono := by decide

theorem witness_FetchWordRunsInstruction :
    decodeTableWord 8 0x10 = some .enc ∧ decodeTableWord 8 0x61 = some .fromuuid := by decide

/-- The boundaries of its four clauses: candidates 1, 2^48 - 1, 0 and the most negative; clocks 1 and 0. -/
theorem witness_FirstMonotonicStepAfterReset :
    ((withTs 0 0 1 9).msr = State.reset.msr ∧ 0 < (withTs 0 0 1 9).reqTs ∧ (withTs 0 0 1 9).reqTs ≤ 2 ^ 48 - 1)
    ∧ (0 < (withTs 0 0 (2 ^ 48 - 1) 9).reqTs ∧ (withTs 0 0 (2 ^ 48 - 1) 9).reqTs ≤ 2 ^ 48 - 1)
    ∧ ((withTs 0 0 0 9).msr = State.reset.msr ∧ (withTs 0 0 0 9).reqTs ≤ 0 ∧ (withTs 0 0 (-2 ^ 63) 9).reqTs ≤ 0)
    ∧ ((withNow 0 0 1 9).msr = State.reset.msr ∧ 0 < (withNow 0 0 1 9).nowValue)
    ∧ ((withNow 0 0 0 9).msr = State.reset.msr ∧ (withNow 0 0 0 9).nowValue = 0) := by decide

/-- From a register that is not the reset value. -/
theorem witness_ResetClearsRegisterAndRun :
    ({ midRun with agenda := [.reset, .present genmOffer] } : State).agenda = .reset :: [.present genmOffer]
    ∧ midRun.msr = { ts := 5, rnd := 9 } ∧ midRun.trace ≠ [] := by decide

theorem witness_IdleBlockKeepsItsState : (withNum 7).agenda = [] ∧ (withNum 7) ≠ State.reset := by decide

/-- The register does change, in a MONO. -/
theorem witness_StepAnswersOnceAndIsTotal : (facing [.present monoOffer]).agenda = [.present monoOffer]
    ∧ register (step (facing [.present monoOffer])) ≠ some (facing [.present monoOffer]).msr := by decide

theorem witness_EveryRequestIsAnsweredInOrder :
    (facing [.present badOffer, .present monoOffer]).agenda = [badOffer, monoOffer].map Move.present := by decide

/-- A command that changes the register and one that does not. -/
theorem witness_CommandFrame :
    (∃ t, exec .mono (withTs 0 0 5 9) = .next t ∧ t.msr ≠ (withTs 0 0 5 9).msr)
    ∧ ∃ t, exec .enc (withNum (2 ^ 130)) = .next t ∧ t.msr = (withNum (2 ^ 130)).msr :=
  ⟨⟨_, rfl, by decide⟩, _, rfl, by decide⟩

theorem witness_EncRendersNumber : 2 ^ 130 ≤ (withNum (2 ^ 130)).reqNum ∧ (withNum (2 ^ 130 - 1)).reqNum < 2 ^ 130
    ∧ 2 ^ 130 ≤ (withNum (2 ^ 180 - 1)).reqNum := by decide

/-- The empty string, the longest, and a bad character at the end. -/
theorem witness_DecReadsPositionalValue :
    (∃ c ∈ (withStr "01ARZ3NDEKTSV4RRFFQ69G5FAU").reqStr, inAlpha c = false)
    ∧ (∀ c ∈ (withStr "").reqStr, inAlpha c = true)
    ∧ (∀ c ∈ (withStr "ZZZZZZZZZZZZZZZZZZZZZZZZZZZZZZZZZZZZ").reqStr, inAlpha c = true)
    ∧ (withStr "ZZZZZZZZZZZZZZZZZZZZZZZZZZZZZZZZZZZZ").reqStr.length = 36 := by decide

theorem witness_AlphabetIsFiftyFourBytes : inAlpha 0x7A#8 = true ∧ inAlpha 0x30#8 = true ∧ inAlpha 0x7B#8 = false := by
  decide

theorem witness_CodecRoundTrip : 2 ^ 130 - 1 < 2 ^ 130 ∧ (txt "zzzzzzzzzzzzzzzzzzzzzzzzzz").chars.length = 26
    ∧ ∀ c ∈ (txt "zzzzzzzzzzzzzzzzzzzzzzzzzz").chars, inAlpha c = true := by decide

theorem witness_DecodeIgnoresCase : ∀ c ∈ (txt "01arZ3ndEKtsv4RRffq69g5fAv").chars, inAlpha c = true := by decide

theorem witness_EncodingKeepsOrder : 2 ^ 130 - 2 < 2 ^ 130 - 1 ∧ 2 ^ 130 - 1 < 2 ^ 130 := by decide

theorem witness_LeadingZeroIsInvisible : ∀ c ∈ (txt "Z").chars, inAlpha c = true := by decide

/-- Each bound of each field, and both out of range. -/
theorem witness_PackJoinsFields :
    ((withPair (-1) 0).reqTs < 0 ∧ 2 ^ 48 - 1 < (withPair (2 ^ 48) (2 ^ 80)).reqTs)
    ∧ (0 ≤ (withPair 0 (2 ^ 80)).reqTs ∧ (withPair 0 (2 ^ 80)).reqTs ≤ 2 ^ 48 - 1
      ∧ 2 ^ 80 - 1 < (withPair 0 (2 ^ 80)).reqRnd)
    ∧ (0 ≤ (withPair (2 ^ 48 - 1) (2 ^ 80 - 1)).reqTs ∧ (withPair (2 ^ 48 - 1) (2 ^ 80 - 1)).reqTs ≤ 2 ^ 48 - 1
      ∧ (withPair (2 ^ 48 - 1) (2 ^ 80 - 1)).reqRnd ≤ 2 ^ 80 - 1) := by decide

theorem witness_PackUnpackInverse : (2 ^ 48 - 1 : Nat) ≤ 2 ^ 48 - 1 ∧ (2 ^ 80 - 1 : Nat) ≤ 2 ^ 80 - 1
    ∧ (2 ^ 128 - 1 : Nat) ≤ 2 ^ 128 - 1 := by decide

/-- T3: the largest random field at timestamp 0 against the smallest at 1. -/
theorem witness_ValueOrderIsFieldOrder : (0 : Nat) < 1 ∧ (1 : Nat) ≤ 2 ^ 48 - 1 ∧ (2 ^ 80 - 1 : Nat) ≤ 2 ^ 80 - 1
    ∧ (0 : Nat) ≤ 2 ^ 80 - 1 ∧ (2 ^ 80 - 1 : Nat) < 2 ^ 128 ∧ (2 ^ 80 : Nat) < 2 ^ 128 := by decide

/-- The four paths at their bounds: 2^48; the stored timestamp and one more; an exhausted field; one short of it. -/
theorem witness_MonoAppliesTransition :
    2 ^ 48 - 1 < (withTs 5 9 (2 ^ 48) 0).reqTs
    ∧ ((withTs 5 9 6 0).msr.ts.toNat < (withTs 5 9 6 0).reqTs ∧ (withTs 5 9 6 0).reqTs ≤ 2 ^ 48 - 1)
    ∧ ((withTs 5 9 (2 ^ 48 - 1) 0).msr.ts.toNat < (withTs 5 9 (2 ^ 48 - 1) 0).reqTs)
    ∧ ((withTs 5 rndMax 5 0).reqTs ≤ (withTs 5 rndMax 5 0).msr.ts.toNat
      ∧ (withTs 5 rndMax 5 0).msr.rnd.toNat = 2 ^ 80 - 1)
    ∧ ((withTs 5 (rndMax - 1) (-2 ^ 63) 0).reqTs ≤ (withTs 5 (rndMax - 1) (-2 ^ 63) 0).msr.ts.toNat
      ∧ (withTs 5 (rndMax - 1) (-2 ^ 63) 0).msr.rnd.toNat < 2 ^ 80 - 1) := by decide

/-- A MONO that gives a value, a GENM within the same timestamp, and a PACK that fails. -/
theorem witness_RegisterFollowsResult :
    (∃ t x, (facing [.present monoOffer]).agenda = [.present monoOffer]
      ∧ step (facing [.present monoOffer]) = .next t ∧ t.trace.head? = some x
      ∧ x.monoValue? = some 0x500000000000000000009)
    ∧ (∃ t x, midRun.agenda = [.present genmOffer] ∧ step midRun = .next t ∧ t.trace.head? = some x
      ∧ x.monoValue? = some 0x50000000000000000000A ∧ t.msr.ts = midRun.msr.ts)
    ∧ ∃ t x, (facing [.present badOffer]).agenda = [.present badOffer]
      ∧ step (facing [.present badOffer]) = .next t ∧ t.trace.head? = some x ∧ x.monoValue? = none :=
  ⟨⟨_, _, rfl, rfl, rfl, by decide⟩, ⟨_, _, by decide, rfl, rfl, by decide, by decide⟩, _, _, rfl, rfl, rfl, by decide⟩

/-- Not only the reset state: after one MONO. -/
theorem witness_SequenceKeptByEveryStep : SequenceInv midRun ∧ monoValues midRun.trace = [0x500000000000000000009]
    ∧ ∃ t, step midRun = .next t := by
  refine ⟨?_, by decide, _, rfl⟩
  unfold SequenceInv
  decide

/-- A run with a lawful exchange in it, a failed PACK. -/
theorem witness_TraceKeptByEveryStep :
    TraceInv (afterStep (facing [.present badOffer, .present monoOffer]))
    ∧ (afterStep (facing [.present badOffer, .present monoOffer])).trace ≠ []
    ∧ ∃ t, step (afterStep (facing [.present badOffer, .present monoOffer])) = .next t := by
  refine ⟨fun x hx => ?_, by decide, _, rfl⟩
  have one : (afterStep (facing [.present badOffer, .present monoOffer])).trace =
      [{ who := 3, req := badOffer.req, draws := Draws.nothing, rsp := Response.code .timestampOutOfRange }] := by decide
  rw [one, List.mem_singleton] at hx
  subst hx
  exact {
    code_le := by decide
    illegal := by decide
    failed := by decide
    done := fun _ _ h => absurd h (by decide)
    ent := by decide
    now := by decide
    ts := fun _ h => by cases h
    rnd := fun _ h => by cases h
    canonical := fun _ h => by cases h
    uuid := fun _ h => by cases h
    small := fun _ h => by cases h }

/-- Two steps from reset: a MONO, then a GENM in its millisecond. -/
theorem witness_MonotonicRunStrictlyIncreases :
    ∃ t, Host.Core.run Sys2Proof.core 2 (facing [.present monoOffer, .present genmOffer]) = .next t
      ∧ monoValues t.trace = [0x50000000000000000000A, 0x500000000000000000009] :=
  ⟨_, rfl, by decide⟩

/-- A new period, an increment, and a virtual millisecond under the other policy. -/
theorem witness_TransitionIncreasesUnderEitherPolicy :
    monoStep .fail { ts := 5, rnd := 9 } 6 0 = .moved { ts := 6, rnd := 0 } true
    ∧ monoStep .fail { ts := 5, rnd := 9 } 5 0 = .moved { ts := 5, rnd := 10 } false
    ∧ monoStep .advance { ts := 5, rnd := rndMax } 5 7 = .moved { ts := 6, rnd := 7 } true := by decide

/-- MONO-1, then a GENM whose clock reads the stored timestamp, the latest reading allowed. -/
theorem witness_SameMillisecondAddsOne :
    ∃ t x, (facing [.present monoOffer, .present genmOffer]).agenda = .present monoOffer :: [.present genmOffer]
      ∧ step (facing [.present monoOffer, .present genmOffer]) = .next t ∧ t.trace.head? = some x
      ∧ x.monoValue? = some 0x500000000000000000009
      ∧ midRun.msr = t.msr ∧ midRun.agenda = [.present genmOffer] ∧ genmOffer.candidate? = some 5
      ∧ (5 : Int) ≤ midRun.msr.ts.toNat ∧ midRun.msr.rnd.toNat < 2 ^ 80 - 1 :=
  ⟨_, _, rfl, rfl, rfl, by decide, by decide, by decide, by decide, by decide, by decide⟩

/-- After a GENM that saw the clock at 5. -/
theorem witness_MonotonicTimestampCoversClocks : ClockInv (afterStep midRun)
    ∧ (afterStep midRun).trace.head?.map (fun x => (x.instr?, x.draws.now)) = some (some .genm, some 5)
    ∧ ∃ t, step (afterStep midRun) = .next t := by
  refine ⟨?_, by decide, _, rfl⟩
  intro x hx hi _ n hn
  have all : ∀ x ∈ (afterStep midRun).trace, x.draws.now = some 5 ∨ x.draws.now = none := by decide
  rcases all x hx with h | h
  · rw [h] at hn
    cases hn
    decide
  · rw [h] at hn
    cases hn

/-- A command that takes its word at the boundary and one that does not, for each of the four. -/
theorem witness_EntropyTakenExactlyWhenUsed :
    (∃ t d, exec .gents (withTs 5 9 (2 ^ 48 - 1) 7) = .next t ∧ t.lastDraws = some d)
    ∧ TakesEntropy (withTs 5 9 (2 ^ 48 - 1) 7) .gents ∧ ¬ TakesEntropy (withTs 5 9 (2 ^ 48) 7) .gents
    ∧ TakesEntropy (withTs 5 9 6 7) .mono ∧ ¬ TakesEntropy (withTs 5 9 5 7) .mono
    ∧ TakesEntropy (withNow 5 9 6 7) .genm ∧ ¬ TakesEntropy (withNow 5 9 5 7) .genm
    ∧ TakesEntropy (withNow 5 9 6 7) .gen ∧ ¬ TakesEntropy (withNum 0) .enc := by
  refine ⟨⟨_, _, rfl, rfl⟩, ?_⟩
  simp only [TakesEntropy]
  decide

/-- An exhausted register at timestamp 5; a GENM and a MONO with that candidate and a PACK follow. -/
def exhausted : State :=
  { facing ([genmOffer, monoOffer, badOffer].map Move.present) with msr := { ts := 5, rnd := rndMax } }

/-- Candidates equal to the stored timestamp, the largest allowed. -/
theorem witness_ExhaustionPersists :
    ∃ t, exhausted.agenda = [genmOffer, monoOffer, badOffer].map Move.present ∧ exhausted.msr.rnd.toNat = 2 ^ 80 - 1
      ∧ (∀ o ∈ [genmOffer, monoOffer, badOffer], ∀ c, o.candidate? = some c → c ≤ exhausted.msr.ts.toNat)
      ∧ Host.Core.run Sys2Proof.core 2 exhausted = .next t := by
  refine ⟨_, rfl, by decide, ?_, rfl⟩
  have c1 : genmOffer.candidate? = some 5 := by decide
  have c2 : monoOffer.candidate? = some 5 := by decide
  have c3 : badOffer.candidate? = none := by decide
  intro o ho c hc
  simp only [List.mem_cons, List.not_mem_nil, or_false] at ho
  rcases ho with rfl | rfl | rfl
  · rw [c1] at hc
    cases hc
    decide
  · rw [c2] at hc
    cases hc
    decide
  · rw [c3] at hc
    cases hc

/-- The three paths at their bounds. -/
theorem witness_GenmAppliesTransition :
    (withNow 5 9 6 0).msr.ts.toNat < (withNow 5 9 6 0).nowValue
    ∧ ((withNow 5 rndMax 5 0).nowValue ≤ (withNow 5 rndMax 5 0).msr.ts.toNat
      ∧ (withNow 5 rndMax 5 0).msr.rnd.toNat = 2 ^ 80 - 1)
    ∧ ((withNow 5 (rndMax - 1) 5 0).nowValue ≤ (withNow 5 (rndMax - 1) 5 0).msr.ts.toNat
      ∧ (withNow 5 (rndMax - 1) 5 0).msr.rnd.toNat < 2 ^ 80 - 1) := by decide

theorem witness_MonoAndGenmShareOneTransition :
    (given 5 9 (offer (reqTs 0 6) 6 1)).reqTs = (given 5 9 (offer (reqTs 0 6) 6 1)).nowValue := by decide

theorem witness_GentsRendersGivenTimestamp :
    ((withTs 5 9 (-1) 0).reqTs < 0 ∧ 2 ^ 48 - 1 < (withTs 5 9 (2 ^ 48) 0).reqTs)
    ∧ (0 ≤ (withTs 5 9 0 0).reqTs ∧ (withTs 5 9 0 0).reqTs ≤ 2 ^ 48 - 1)
    ∧ (0 ≤ (withTs 5 9 (2 ^ 48 - 1) 0).reqTs ∧ (withTs 5 9 (2 ^ 48 - 1) 0).reqTs ≤ 2 ^ 48 - 1) := by decide

theorem witness_IsvalidTestsLengthAndAlphabet : (withStr "zzzzzzzzzzzzzzzzzzzzzzzzzz").reqStr.length = 26
    ∧ ∀ c ∈ (withStr "zzzzzzzzzzzzzzzzzzzzzzzzzz").reqStr, fold c ∈ alphabet := by decide

/-- 25 and 26 characters. -/
theorem witness_XtsReadsTimestamp : wellFormedText (withStr "01ARZ3NDEKTSV4RRFFQ69G5FA").reqStr = false
    ∧ wellFormedText (withStr "01ARZ3NDEKTSV4RRFFQ69G5FAV").reqStr = true := by decide

/-- 27 and 26 characters. -/
theorem witness_XrndReadsRandom : wellFormedText (withStr "01ARZ3NDEKTSV4RRFFQ69G5FAV0").reqStr = false
    ∧ wellFormedText (withStr "01ARZ3NDEKTSV4RRFFQ69G5FAV").reqStr = true := by decide

/-- A bad character, and lower case. -/
theorem witness_NormFoldsToUpperCase : wellFormedText (withStr "01ARZ3NDEKTSV4RRFFQ69G5FAU").reqStr = false
    ∧ wellFormedText (withStr "01arz3ndektsv4rrffq69g5fav").reqStr = true := by decide

/-- The smallest and the largest string above the range. -/
theorem witness_StringsAboveRange :
    (wellFormedText (withStr "80000000000000000000000000").reqStr = true
      ∧ 8 ≤ digit ((withStr "80000000000000000000000000").reqStr.getD 0 0))
    ∧ (wellFormedText (withStr "zzzzzzzzzzzzzzzzzzzzzzzzzz").reqStr = true
      ∧ 8 ≤ digit ((withStr "zzzzzzzzzzzzzzzzzzzzzzzzzz").reqStr.getD 0 0)) := by decide

/-- The largest generated string, and the largest that ENC writes. -/
theorem witness_GeneratedStringsAreCanonical :
    (∃ t r w, Instr.gen ∈ [Instr.enc, .gen, .genm, .gents, .norm, .fromuuid]
      ∧ exec .gen (withNow 5 9 281474976710655 rndMax) = .next t ∧ t.lastRsp = some r ∧ r.str = some w)
    ∧ ∃ t r w, exec .enc (withNum (2 ^ 130 - 1)) = .next t ∧ t.lastRsp = some r ∧ r.str = some w :=
  ⟨⟨_, _, _, by decide, rfl, rfl, rfl⟩, _, _, _, rfl, rfl, rfl⟩

/-- A GEN and a GENTS with one timestamp, the largest. -/
theorem witness_StringsDifferExactlyWithEntropy : StampedAt .gen (withNow 5 9 281474976710655 1) 281474976710655
    ∧ StampedAt .gents (withTs 5 9 281474976710655 2) 281474976710655 :=
  ⟨.inl (by decide), .inr (by decide)⟩

/-- One generating command of each kind, its string presented in `u`. -/
theorem witness_ExtractionUndoesGeneration :
    (∃ t r w, exec .gents (withTs 5 9 0 7) = .next t ∧ t.lastRsp = some r ∧ r.str = some w
      ∧ (withStr "00000000000000000000000007").cur.req.str = w)
    ∧ (∃ t r w, exec .gen (withNow 5 9 0 7) = .next t ∧ t.lastRsp = some r ∧ r.str = some w
      ∧ (withStr "00000000000000000000000007").cur.req.str = w)
    ∧ ∃ t r w, exec .genm (withNow 0 6 0 0) = .next t ∧ t.lastRsp = some r ∧ r.str = some w
      ∧ (withStr "00000000000000000000000007").cur.req.str = w :=
  ⟨⟨_, _, _, rfl, rfl, rfl, by decide⟩, ⟨_, _, _, rfl, rfl, rfl, by decide⟩, _, _, _, rfl, rfl, rfl, by decide⟩

/-- Badly formed; first digit 8; first digit 7. -/
theorem witness_TouuidWritesUuidText : wellFormedText (withStr "8000000000000000000000000U").reqStr = false
    ∧ (wellFormedText (withStr "80000000000000000000000000").reqStr = true
      ∧ 8 ≤ digit ((withStr "80000000000000000000000000").reqStr.getD 0 0))
    ∧ (wellFormedText (withStr "7ZZZZZZZZZZZZZZZZZZZZZZZZZ").reqStr = true
      ∧ digit ((withStr "7ZZZZZZZZZZZZZZZZZZZZZZZZZ").reqStr.getD 0 0) < 8) := by decide

/-- 36 characters, 32 characters, and FROMUUID-20: 36 hex digits without hyphens. -/
theorem witness_FromuuidReadsUuidText : UuidShaped (withStr "01563e3a-b5d3-d676-4c61-efb99302bd5b").reqStr
    ∧ UuidShaped (withStr "01563E3AB5D3D6764C61EFB99302BD5B").reqStr
    ∧ ¬ UuidShaped (withStr "000000000000000000000000000000000000").reqStr := by
  simp only [← uuidParse_isSome_iff]
  decide

/-- The ends of each of the three ranges, and the bytes just outside them. -/
theorem witness_HexTablesAsTabled : (∀ c ∈ [0x30#8, 0x39, 0x41, 0x46, 0x61, 0x66], isHex c = true)
    ∧ (∀ c ∈ [0x2F#8, 0x3A, 0x40, 0x47, 0x60, 0x67], isHex c = false) ∧ hexVal 0x46 = 15 := by decide

/-- FROMUUID-5 and FROMUUID-4. -/
theorem witness_FromuuidIgnoresCase : (withStr "01563e3a-b5d3-d676-4c61-efb99302bd5b").reqStr
    = (withStr "01563E3A-B5D3-D676-4C61-EFB99302BD5B").reqStr.map lowerCase := by decide

/-- TOUUID-3 and FROMUUID-4, each the other's input. -/
theorem witness_UuidRoundTrip :
    (∃ t r w, exec .touuid (withStr "01ARZ3NDEKTSV4RRFFQ69G5FAV") = .next t ∧ t.lastRsp = some r ∧ r.str = some w
      ∧ (withStr "01563e3a-b5d3-d676-4c61-efb99302bd5b").cur.req.str = w)
    ∧ ∃ t r w, exec .fromuuid (withStr "01563e3a-b5d3-d676-4c61-efb99302bd5b") = .next t ∧ t.lastRsp = some r
      ∧ r.str = some w ∧ (withStr "01ARZ3NDEKTSV4RRFFQ69G5FAV").cur.req.str = w :=
  ⟨⟨_, _, _, rfl, rfl, rfl, by decide⟩, _, _, _, rfl, rfl, rfl, by decide⟩

/-- Rows of the table that name a failure, one that names none for a command that can fail, and a word not in the map. -/
theorem witness_FailureTable : (∀ i, (given 5 9 (offer (reqStr 0x41 "") 0 0)).commandWord ≠ encode i)
    ∧ FailsWith (withTs 5 9 (2 ^ 48) 0) .mono .timestampOutOfRange
    ∧ FailsWith (withTs 5 rndMax 5 0) .mono .monotonicOverflow ∧ FailsWith (withTs 5 9 5 0) .mono .none
    ∧ FailsWith (withPair (-1) 0) .pack .timestampOutOfRange ∧ FailsWith (withPair 0 (2 ^ 80)) .pack .randomOutOfRange
    ∧ FailsWith (withTs 5 9 (-1) 0) .gents .invalidTimestamp := by
  refine ⟨fun i => by cases i <;> decide, ?_⟩
  simp only [FailsWith, monoFailure]
  decide

theorem witness_FailureCodesAsTabled : ErrKind.illegalCommand.code = (9 : ErrCode) ∧ ErrKind.none.code = (0 : ErrCode)
    ∧ ErrKind.illegalCommand.code = ErrKind.illegalCommand.code := by decide

/-- A failing PACK. -/
theorem witness_FailureChangesNothingElse :
    ∃ t r, runCommand (given 5 9 badOffer) = .next t ∧ t.lastRsp = some r ∧ r.err ≠ 0 :=
  ⟨_, _, rfl, rfl, by decide⟩

/-- A failing PACK, then a MONO. -/
theorem witness_FailedCommandLeavesNoTrace :
    ∃ t r, (facing [.present badOffer, .present monoOffer]).agenda = .present badOffer :: .present monoOffer :: []
      ∧ step (facing [.present badOffer, .present monoOffer]) = .next t ∧ t.lastRsp = some r ∧ r.err ≠ 0 :=
  ⟨_, _, rfl, rfl, rfl, by decide⟩

/-- Two states that agree on the string alone. -/
theorem witness_AnswerDependsOnlyOnWhatIsRead :
    AgreeOn (readsOf .dec) (withStr "Z") (given 7 1 (offer { reqStr 0x11 "Z" with num := 4 } 8 2)) := by
  constructor <;> decide

end Sys2Proof.Tests
end

section
/-! PROOFS. Family 10_state.md. First what each command can answer (10_state.md R23, R24), said once; then the statements
on the record, the register, the frame and what a command reads. -/

namespace Sys2Proof.Machine

-- The command of an exchange, and the ranges of the two fields.

theorem Exchange.instr?_eq_some {x : Exchange} {i : Instr} (h : decode Config.hasUuid x.req.cmd = .instr i) :
    x.instr? = some i := by
  rw [Exchange.instr?, h]

theorem Exchange.instr?_eq_none {x : Exchange} {why : IllegalWord}
    (h : decode Config.hasUuid x.req.cmd = .illegal why) : x.instr? = none := by
  rw [Exchange.instr?, h]

theorem ErrKind.code_le (k : ErrKind) : k.code.toNat ≤ 9 := by
  cases k <;> decide

theorem ErrKind.code_eq_zero {k : ErrKind} : k.code = 0 ↔ k = .none := by
  cases k <;> decide

theorem pack_lt {t r : Nat} (ht : t < 2 ^ 48) (hr : r < 2 ^ 80) : pack t r < 2 ^ 128 := by
  rw [pack_eq hr]
  omega

theorem unpackTs_lt {v : Nat} (h : v < 2 ^ 130) : unpackTs v < 2 ^ 50 := by
  rw [unpackTs_eq]
  omega

theorem unpackRnd_lt (v : Nat) : unpackRnd v < 2 ^ 80 := by
  rw [unpackRnd_eq]
  exact Nat.mod_lt _ (by decide)

theorem toNat_ofNat_lt_of_lt {w n b : Nat} (h : n < b) : (BitVec.ofNat w n).toNat < b := by
  rw [BitVec.toNat_ofNat]
  exact (Nat.mod_le _ _).trans_lt h

/-- The string of a value below 2^128 starts with a digit below 8, so it decodes below 2^128 too (R177). -/
theorem b32dec_b32enc_lt {n : Nat} (h : n < 2 ^ 128) : b32dec (b32enc n).chars < 2 ^ 128 := by
  have first : (b32enc n).chars.getD 0 0 = alpha (b32Digit n 0) := by
    rw [List.getD_eq_getElem?_getD, b32enc_getElem? n (by decide), Option.getD_some]
  have small : digit ((b32enc n).chars.getD 0 0) < 8 := by
    rw [first, digit_alpha _ (b32Digit_lt n 0), b32Digit_eq]
    omega
  have := (first_digit (b32enc_length n)).not.mp (by omega)
  omega

-- What a command can draw and answer.

/-- The draws a command may take, whether it succeeds or fails (R11, R228). -/
def DrawsAllowed (i : Instr) (d : Draws) : Prop :=
  (d.ent ≠ none → i = .gen ∨ i = .genm ∨ i = .gents ∨ i = .mono) ∧ (d.now ≠ none ↔ i = .gen ∨ i = .genm)

/-- The responses with which a command can succeed, with the ranges of its results (R23, R24, R177). -/
def SuccessAnswer (r : Response) : Instr → Prop
  | .enc => ∃ n, r = Response.text (b32enc n)
  | .dec => ∃ n, r = Response.number n
  | .pack => ∃ v, r = Response.value v
  | .unpack => ∃ a b, a.toNat < 2 ^ 50 ∧ b.toNat < 2 ^ 80 ∧ r = Response.fields a b
  | .chk => ∃ p, r = Response.bool p
  | .mono => ∃ v, r = Response.value v
  | .gen => ∃ n < 2 ^ 128, r = Response.text (b32enc n)
  | .genm => ∃ n < 2 ^ 128, r = Response.text (b32enc n)
  | .gents => ∃ n < 2 ^ 128, r = Response.text (b32enc n)
  | .isvalid => ∃ p, r = Response.bool p
  | .xts => ∃ a, a.toNat < 2 ^ 50 ∧ r = Response.time a
  | .xrnd => ∃ b, b.toNat < 2 ^ 80 ∧ r = Response.random b
  | .norm => ∃ n, r = Response.text (b32enc n)
  | .touuid => ∃ v, r = Response.text (uuidText Config.uuidCase v)
  | .fromuuid => ∃ n < 2 ^ 128, r = Response.text (b32enc n)

/-- A result of command `i` in state `s`: allowed draws, and either a failure without entropy or a success answer. -/
def EndsLawfully (i : Instr) (s : State) (a : Result) : Prop :=
  ∃ m d r, a = .next (s.finish m d r) ∧ DrawsAllowed i d
    ∧ ((∃ k, k ≠ ErrKind.none ∧ r = Response.code k ∧ d.ent = none) ∨ SuccessAnswer r i)

section
variable {i : Instr} {s : State}

theorem drawsAllowed_nothing (h : i ≠ .gen ∧ i ≠ .genm) : DrawsAllowed i Draws.nothing := by
  simp [DrawsAllowed, Draws.nothing, h]

theorem drawsAllowed_mono (e : Option Rand) : DrawsAllowed .mono { now := none, ent := e } := by
  simp [DrawsAllowed]

theorem drawsAllowed_genm (n : Millis) (e : Option Rand) : DrawsAllowed .genm { now := some n, ent := e } := by
  simp [DrawsAllowed]

theorem EndsLawfully.raise {k : ErrKind} {clock : Option Millis} (hk : k ≠ .none)
    (hd : DrawsAllowed i { now := clock, ent := none }) : EndsLawfully i s (raise s k clock) :=
  ⟨_, _, _, rfl, hd, .inl ⟨k, hk, rfl, rfl⟩⟩

theorem EndsLawfully.succeed {m : Msr} {d : Draws} {r : Response} (hd : DrawsAllowed i d) (hr : SuccessAnswer r i) :
    EndsLawfully i s (succeed s m d r) :=
  ⟨_, _, _, rfl, hd, .inr hr⟩

/-- A failing command that has drawn nothing. -/
theorem EndsLawfully.raise_nothing {k : ErrKind} (hi : i ≠ .gen ∧ i ≠ .genm) (hk : k ≠ .none) :
    EndsLawfully i s (Machine.raise s k none) :=
  .raise hk (drawsAllowed_nothing hi)

/-- A succeeding command that has drawn nothing. -/
theorem EndsLawfully.succeed_nothing {m : Msr} {r : Response} (hi : i ≠ .gen ∧ i ≠ .genm) (hr : SuccessAnswer r i) :
    EndsLawfully i s (Machine.succeed s m Draws.nothing r) :=
  .succeed (drawsAllowed_nothing hi) hr

end

theorem monoStep_failed_ne_none {m : Msr} {now : Int} {e : Rand} {k : ErrKind}
    (h : monoStep Config.monoOvf m now e = .failed k) : k ≠ .none := by
  rcases monoStep_cases m now e with ⟨-, hc⟩ | ⟨-, -, hc⟩ | ⟨-, -, hc⟩ | ⟨-, -, hc⟩ <;>
    cases hc.symm.trans h <;> decide

/-- Every command ends lawfully: the draws and the response of each of the fifteen (R24). -/
theorem exec_endsLawfully (i : Instr) (s : State) : EndsLawfully i s (exec i s) := by
  have well {c : List Byte} (h : wellFormedText c = true) : b32dec c < 2 ^ 130 := by
    have lt := b32dec_lt c
    rw [((wellFormedText_iff c).mp h).1] at lt
    exact lt.trans_eq (by norm_num)
  cases i <;> simp only [exec]
  case enc =>
    unfold execEnc
    split
    · exact .raise_nothing (by decide) (by decide)
    · exact .succeed_nothing (by decide) ⟨_, rfl⟩
  case dec =>
    unfold execDec
    split
    · exact .succeed_nothing (by decide) ⟨_, rfl⟩
    · exact .raise_nothing (by decide) (by decide)
  case pack =>
    unfold execPack
    split
    · exact .raise_nothing (by decide) (by decide)
    split
    · exact .raise_nothing (by decide) (by decide)
    · exact .succeed_nothing (by decide) ⟨_, rfl⟩
  case unpack =>
    have val := s.cur.req.val.isLt
    exact .succeed_nothing (by decide) ⟨_, _, toNat_ofNat_lt_of_lt (unpackTs_lt (val.trans (by decide))),
      toNat_ofNat_lt_of_lt (unpackRnd_lt _), rfl⟩
  case chk => exact .succeed_nothing (by decide) ⟨_, rfl⟩
  case isvalid => exact .succeed_nothing (by decide) ⟨_, rfl⟩
  case mono =>
    unfold execMono
    split
    case h_1 k hk => exact .raise (monoStep_failed_ne_none hk) (drawsAllowed_mono _)
    case h_2 => exact .succeed (drawsAllowed_mono _) ⟨_, rfl⟩
  case gen =>
    exact .succeed (by simp [DrawsAllowed, Draws.both]) ⟨_, pack_lt s.cur.now.isLt s.cur.ent.isLt, rfl⟩
  case genm =>
    unfold execGenm
    split
    case h_1 k hk => exact .raise (monoStep_failed_ne_none hk) (drawsAllowed_genm _ _)
    case h_2 m used _ => exact .succeed (drawsAllowed_genm _ _) ⟨_, m.packed_lt, rfl⟩
  case gents =>
    unfold execGents
    split
    case isTrue => exact .raise_nothing (by decide) (by decide)
    case isFalse inRange =>
      obtain ⟨-, high⟩ := (tsOutOfRange_eq_false s.reqTs).mp (by simpa using inRange)
      exact .succeed (by simp [DrawsAllowed, Draws.entropy]) ⟨_, pack_lt (by omega) s.cur.ent.isLt, rfl⟩
  case xts =>
    unfold execXts
    split
    case isTrue ok => exact .succeed_nothing (by decide) ⟨_, toNat_ofNat_lt_of_lt (unpackTs_lt (well ok)), rfl⟩
    case isFalse => exact .raise_nothing (by decide) (by decide)
  case xrnd =>
    unfold execXrnd
    split
    · exact .succeed_nothing (by decide) ⟨_, toNat_ofNat_lt_of_lt (unpackRnd_lt _), rfl⟩
    · exact .raise_nothing (by decide) (by decide)
  case norm =>
    unfold execNorm
    split
    · exact .succeed_nothing (by decide) ⟨_, rfl⟩
    · exact .raise_nothing (by decide) (by decide)
  case touuid =>
    unfold execTouuid
    split
    · split
      · exact .raise_nothing (by decide) (by decide)
      · exact .succeed_nothing (by decide) ⟨_, rfl⟩
    · exact .raise_nothing (by decide) (by decide)
  case fromuuid =>
    unfold execFromuuid
    split
    case h_1 => exact .raise_nothing (by decide) (by decide)
    case h_2 v hv => exact .succeed_nothing (by decide) ⟨_, uuidParse_lt hv, rfl⟩

-- Every exchange that a step records is lawful.

section
variable {x : Exchange} {i : Instr}

/-- An exchange of an illegal word (R73, R224). -/
theorem Exchange.lawful_of_illegal (hi : x.instr? = none) (hd : x.draws = Draws.nothing)
    (hr : x.rsp = Response.code .illegalCommand) : x.Lawful := by
  constructor <;> simp [hi, hd, hr, Draws.nothing, Response.code, Response.written, Writes.nothing, ErrKind.code]

/-- An exchange of a command that failed (R224). -/
theorem Exchange.lawful_of_failure {k : ErrKind} (hi : x.instr? = some i) (hd : DrawsAllowed i x.draws)
    (hk : k ≠ .none) (hr : x.rsp = Response.code k) (he : x.draws.ent = none) : x.Lawful := by
  constructor
  case code_le => simpa [hr] using k.code_le
  case now => simpa [hi] using hd.2
  case done =>
    intro _ _ h
    rw [hr] at h
    exact absurd (ErrKind.code_eq_zero.mp h) hk
  all_goals simp [hi, hr, he, Response.code, Response.written, Writes.nothing]

/-- An exchange of a command that succeeded without a string. -/
theorem Exchange.lawful_of_fields {r : Response} (hi : x.instr? = some i) (hd : DrawsAllowed i x.draws)
    (hr : x.rsp = r) (herr : r.err = 0) (hw : r.written = writesOf i) (hstr : r.str = none)
    (hts : ∀ v, r.ts = some v → v.toNat < 2 ^ 50) (hrnd : ∀ v, r.rnd = some v → v.toNat < 2 ^ 80) : x.Lawful := by
  subst hr
  constructor
  case ent => simpa [hi] using hd.1
  case now => simpa [hi] using hd.2
  case ts =>
    intro v hv
    have lt := hts v hv
    rw [BitVec.toInt_eq_toNat_of_lt (by omega)]
    exact ⟨Int.natCast_nonneg _, lt⟩
  case rnd => exact hrnd
  all_goals simp [hi, herr, hw, hstr]

/-- An exchange of a command that succeeded with a string. -/
theorem Exchange.lawful_of_text {t : Text} (hi : x.instr? = some i) (hd : DrawsAllowed i x.draws)
    (hr : x.rsp = Response.text t) (hw : writesOf i = { Writes.nothing with str := true })
    (canonical : i ≠ .touuid → Canonical t) (uuid : i = .touuid → t.chars.length = 36)
    (small : i = .gen ∨ i = .genm ∨ i = .gents ∨ i = .fromuuid → b32dec t.chars < 2 ^ 128) : x.Lawful := by
  constructor
  case ent => simpa [hi] using hd.1
  case now => simpa [hi] using hd.2
  case canonical => simpa [hi, hr] using canonical
  case uuid => simpa [hi, hr] using uuid
  case small => simpa [hi, hr] using small
  case done =>
    intro j hj _
    rw [hr, ← Option.some.inj (hi.symm.trans hj), hw]
    rfl
  case ts => rw [hr]; exact nofun
  case rnd => rw [hr]; exact nofun
  all_goals simp [hi, hr]

/-- The string is one that the encoder wrote, which settles its shape (R177). -/
theorem Exchange.lawful_of_b32enc {n : Nat} (hi : x.instr? = some i) (hd : DrawsAllowed i x.draws)
    (hr : x.rsp = Response.text (b32enc n)) (hw : writesOf i = { Writes.nothing with str := true }) (hu : i ≠ .touuid)
    (small : i = .gen ∨ i = .genm ∨ i = .gents ∨ i = .fromuuid → n < 2 ^ 128) : x.Lawful :=
  lawful_of_text hi hd hr hw (fun _ => b32enc_canonical n) (absurd · hu) fun h => b32dec_b32enc_lt (small h)

/-- An exchange of a command that succeeded, from its row of `SuccessAnswer`. -/
theorem Exchange.lawful_of_success (hi : x.instr? = some i) (hd : DrawsAllowed i x.draws)
    (hr : SuccessAnswer x.rsp i) : x.Lawful := by
  cases i
  case enc | norm =>
    obtain ⟨n, hr⟩ := hr
    exact lawful_of_b32enc hi hd hr rfl (by decide) (by simp)
  case gen | genm | gents | fromuuid =>
    obtain ⟨n, hn, hr⟩ := hr
    exact lawful_of_b32enc hi hd hr rfl (by decide) fun _ => hn
  case touuid =>
    obtain ⟨v, hr⟩ := hr
    exact lawful_of_text hi hd hr rfl (by simp) (fun _ => uuidText_length _ v) (by simp)
  case dec | pack | mono | chk | isvalid =>
    obtain ⟨v, hr⟩ := hr
    exact lawful_of_fields hi hd hr rfl rfl rfl nofun nofun
  case xts =>
    obtain ⟨a, ha, hr⟩ := hr
    exact lawful_of_fields hi hd hr rfl rfl rfl (fun _ h => Option.some.inj h ▸ ha) nofun
  case xrnd =>
    obtain ⟨b, hb, hr⟩ := hr
    exact lawful_of_fields hi hd hr rfl rfl rfl nofun fun _ h => Option.some.inj h ▸ hb
  case unpack =>
    obtain ⟨a, b, ha, hb, hr⟩ := hr
    exact lawful_of_fields hi hd hr rfl rfl rfl (fun _ h => Option.some.inj h ▸ ha)
      fun _ h => Option.some.inj h ▸ hb

end

/-- The exchange that a legal command adds. -/
theorem Exchange.lawful_of_exec {i : Instr} {s t : State} (hi : decode Config.hasUuid s.cur.req.cmd = .instr i)
    (h : exec i s = .next t) : ∃ x, t.trace = x :: s.trace ∧ x.Lawful := by
  obtain ⟨m, d, r, he, hd, answer⟩ := exec_endsLawfully i s
  cases he.symm.trans h
  refine ⟨_, rfl, ?_⟩
  rcases answer with ⟨k, hk, hr, hent⟩ | hr
  · exact lawful_of_failure (instr?_eq_some hi) hd hk hr hent
  · exact lawful_of_success (instr?_eq_some hi) hd hr

theorem TraceInv.cons {s t : State} {x : Exchange} (hs : TraceInv s) (hx : x.Lawful) (ht : t.trace = x :: s.trace) :
    TraceInv t := by
  intro y hy
  rw [ht, List.mem_cons] at hy
  rcases hy with rfl | hy
  · exact hx
  · exact hs y hy

/-- Settles O27, by the cases of a step: only an accepted request adds an exchange, and that exchange is lawful. -/
theorem traceKeptByEveryStep : Obligations.TraceKeptByEveryStep := by
  intro s t hs h
  rcases step_cases h with ⟨-, rfl⟩ | ⟨rest, -, rfl⟩ | ⟨o, rest, i, -, hi, he⟩ | ⟨o, rest, why, -, hw, rfl⟩
  · exact hs
  · exact nofun
  · obtain ⟨x, ht, hx⟩ := Exchange.lawful_of_exec (s := s.accept o rest) hi he
    exact hs.cons hx ht
  · exact hs.cons (Exchange.lawful_of_illegal (Exchange.instr?_eq_none hw) rfl rfl) rfl

/-- Settles O28: the record is empty and `MSR` packs to 0. -/
theorem invariantHoldsAtReset : Obligations.InvariantHoldsAtReset := by
  have fresh (rest : List Move) : Inv (State.afterReset rest) ∧ ClockInv (State.afterReset rest) := by
    refine ⟨⟨⟨List.pairwise_singleton _ _, ?_⟩, nofun⟩, nofun⟩
    simp [monoValues, Msr.packed_eq]
  exact ⟨(fresh []).1, (fresh []).2, fresh⟩

/-- Settles O11: `finish` fixes the frame, and a failure finishes on the old register. -/
theorem commandFrame : Obligations.CommandFrame := by
  intro i s t h
  obtain ⟨m, d, r, he, hm⟩ := exec_finishes i s
  cases he.symm.trans h
  refine ⟨rfl, rfl, d, r, rfl, fun moved => ⟨?_, ?_⟩⟩
  · by_contra hw
    exact moved (hm (by simpa using hw))
  · rcases exec_outcome h with ⟨k, clock, -, hf⟩ | ⟨m', d', r', hr, hf⟩
    · exact absurd (congrArg State.msr hf) moved
    · have : r = r' := Option.some.inj (congrArg State.lastRsp hf)
      rw [this, hr]

-- The two ways in which MONO and GENM succeed.

theorem monoStep_newPeriod {m : Msr} {now : Int} (e : Rand) (later : m.ts.toNat < now) (le : now ≤ 2 ^ 48 - 1) :
    monoStep Config.monoOvf m now e = .moved { ts := BitVec.ofNat 48 now.toNat, rnd := e } true := by
  rcases monoStep_cases m now e with ⟨h, -⟩ | ⟨-, -, h⟩ | ⟨h, -⟩ | ⟨h, -⟩
  · omega
  · exact h
  · omega
  · omega

theorem monoStep_increment {m : Msr} {now : Int} (e : Rand) (notLater : now ≤ m.ts.toNat)
    (room : m.rnd.toNat < 2 ^ 80 - 1) :
    monoStep Config.monoOvf m now e = .moved { ts := m.ts, rnd := m.rnd + 1 } false := by
  have := m.ts.isLt
  rcases monoStep_cases m now e with ⟨h, -⟩ | ⟨h, -⟩ | ⟨-, h, -⟩ | ⟨-, -, h⟩
  · omega
  · omega
  · omega
  · exact h

theorem ofNat_packed (m : Msr) : BitVec.ofNat 128 m.packed = m.ts ++ m.rnd := by
  apply BitVec.eq_of_toNat_eq
  rw [BitVec.toNat_ofNat, Nat.mod_eq_of_lt m.packed_lt, BitVec.toNat_append]
  rfl

theorem packed_shows (m : Msr) : Shows (b32enc m.packed) (ulidBits m.ts m.rnd) :=
  b32enc_shows ((ulidBits_toNat m.ts m.rnd).trans m.packed_eq.symm)

section
variable {s : State} {m : Msr} {used : Bool}

theorem exec_mono_moved (h : monoStep Config.monoOvf s.msr s.reqTs s.cur.ent = .moved m used) :
    exec .mono s = .next (s.finish m { now := none, ent := entIf used s.cur } (Response.value (m.ts ++ m.rnd))) := by
  simp only [exec, execMono, h, ofNat_packed, succeed]

theorem exec_genm_moved (h : monoStep Config.monoOvf s.msr s.nowValue s.cur.ent = .moved m used) :
    exec .genm s = .next (s.finish m { now := some s.cur.now, ent := entIf used s.cur }
      (Response.text (b32enc m.packed))) := by
  simp only [exec, execGenm, h, succeed]

theorem exec_mono_newPeriod (later : s.msr.ts.toNat < s.reqTs) (le : s.reqTs ≤ 2 ^ 48 - 1) :
    exec .mono s = .next (s.finish { ts := BitVec.ofNat 48 s.reqTs.toNat, rnd := s.cur.ent } (Draws.entropy s.cur)
      (Response.value (BitVec.ofNat 48 s.reqTs.toNat ++ s.cur.ent))) :=
  exec_mono_moved (monoStep_newPeriod _ later le)

theorem exec_mono_increment (notLater : s.reqTs ≤ s.msr.ts.toNat) (room : s.msr.rnd.toNat < 2 ^ 80 - 1) :
    exec .mono s = .next (s.finish { ts := s.msr.ts, rnd := s.msr.rnd + 1 } Draws.nothing
      (Response.value (s.msr.ts ++ (s.msr.rnd + 1)))) :=
  exec_mono_moved (monoStep_increment _ notLater room)

theorem exec_genm_newPeriod (later : s.msr.ts.toNat < s.nowValue) :
    ∃ t, Shows t (ulidBits s.cur.now s.cur.ent)
      ∧ exec .genm s = .next (s.finish { ts := s.cur.now, rnd := s.cur.ent } (Draws.both s.cur) (Response.text t)) := by
  have lt : s.nowValue < 2 ^ 48 := s.cur.now.isLt
  have moved := monoStep_newPeriod (m := s.msr) (now := s.nowValue) s.cur.ent (by omega) (by omega)
  have clock : BitVec.ofNat 48 (s.nowValue : Int).toNat = s.cur.now := BitVec.ofNat_toNat _ _
  rw [clock] at moved
  exact ⟨_, packed_shows ⟨s.cur.now, s.cur.ent⟩, exec_genm_moved moved⟩

theorem exec_genm_increment (notLater : s.nowValue ≤ s.msr.ts.toNat) (room : s.msr.rnd.toNat < 2 ^ 80 - 1) :
    ∃ t, Shows t (ulidBits s.msr.ts (s.msr.rnd + 1))
      ∧ exec .genm s = .next (s.finish { ts := s.msr.ts, rnd := s.msr.rnd + 1 } (Draws.clock s.cur)
          (Response.text t)) :=
  ⟨_, packed_shows ⟨s.msr.ts, s.msr.rnd + 1⟩,
    exec_genm_moved (monoStep_increment s.cur.ent (by exact_mod_cast notLater) room)⟩

end

theorem ofNat_toNat_eq_ofInt {w : Nat} {t : Int} (h : 0 ≤ t) : BitVec.ofNat w t.toNat = BitVec.ofInt w t := by
  rw [← BitVec.ofInt_natCast, Int.toNat_of_nonneg h]

/-- Settles O6: at reset `MSR` is (0, 0), so a candidate above 0 starts a new period and any other adds one. -/
theorem firstMonotonicStepAfterReset : Obligations.FirstMonotonicStepAfterReset := by
  have ts {s : State} (h : s.msr = State.reset.msr) : s.msr.ts = 0 := by rw [h]; rfl
  have rnd {s : State} (h : s.msr = State.reset.msr) : s.msr.rnd = 0 := by rw [h]; rfl
  refine ⟨rfl, fun s h low high => ?_, fun s h low => ?_, fun s h low => ?_, fun s h zero => ?_⟩
  · rw [← ofNat_toNat_eq_ofInt low.le]
    exact exec_mono_newPeriod (by rwa [ts h]) high
  · have moved := exec_mono_increment (s := s) (by rwa [ts h]) (by rw [rnd h]; decide)
    rwa [ts h, rnd h] at moved
  · exact exec_genm_newPeriod (by rwa [ts h])
  · have moved := exec_genm_increment (s := s) (by rw [zero]; exact Nat.zero_le _) (by rw [rnd h]; decide)
    rwa [ts h, rnd h] at moved

-- What a command reads.

/-- Two results answer alike: one response, and, where `w` says that the command writes it, one `MSR`. -/
def AnswerAlike (w : Bool) (a b : Result) : Prop :=
  ∃ s' t', a = .next s' ∧ b = .next t' ∧ s'.lastRsp = t'.lastRsp ∧ (w = true → s'.msr = t'.msr)

section
variable {w : Bool} {s t : State}

theorem AnswerAlike.succeed {m m' : Msr} {d d' : Draws} {r : Response} (h : w = true → m = m') :
    AnswerAlike w (succeed s m d r) (succeed t m' d' r) :=
  ⟨_, _, rfl, rfl, rfl, h⟩

theorem AnswerAlike.raise {k : ErrKind} {c c' : Option Millis} (h : w = true → s.msr = t.msr) :
    AnswerAlike w (raise s k c) (raise t k c') :=
  ⟨_, _, rfl, rfl, rfl, h⟩

theorem AnswerAlike.ite {p : Prop} [Decidable p] {a a' b b' : Result} (ha : AnswerAlike w a a')
    (hb : AnswerAlike w b b') : AnswerAlike w (if p then a else b) (if p then a' else b') := by
  split
  · exact ha
  · exact hb

end

/-- Settles O54: each command's answer is computed from its row of R24 alone. -/
theorem answerDependsOnlyOnWhatIsRead : Obligations.AnswerDependsOnlyOnWhatIsRead := by
  intro i s t h
  change AnswerAlike (writesMsr i) (exec i s) (exec i t)
  have ts (e : (readsOf i).ts = true) : s.reqTs = t.reqTs := congrArg BitVec.toInt (h.ts e)
  have rnd (e : (readsOf i).rnd = true) : s.reqRnd = t.reqRnd := congrArg BitVec.toNat (h.rnd e)
  have val (e : (readsOf i).val = true) : s.reqVal = t.reqVal := congrArg BitVec.toNat (h.val e)
  have num (e : (readsOf i).num = true) : s.reqNum = t.reqNum := congrArg BitVec.toNat (h.num e)
  have str (e : (readsOf i).str = true) : s.reqStr = t.reqStr := congrArg Text.chars (h.str e)
  have now (e : (readsOf i).now = true) : s.nowValue = t.nowValue := congrArg BitVec.toNat (h.now e)
  have ent (e : (readsOf i).ent = true) : s.entValue = t.entValue := congrArg BitVec.toNat (h.ent e)
  have other {m m' : Msr} : false = true → m = m' := nofun
  cases i <;> simp only [exec, writesMsr]
  case enc =>
    simp only [execEnc, num rfl]
    exact .ite (.raise other) (.succeed other)
  case dec =>
    simp only [execDec, str rfl]
    exact .ite (.succeed other) (.raise other)
  case pack =>
    simp only [execPack, ts rfl, rnd rfl]
    exact .ite (.raise other) (.ite (.raise other) (.succeed other))
  case unpack =>
    simp only [execUnpack, val rfl]
    exact .succeed other
  case chk =>
    simp only [execChk, str rfl]
    exact .succeed other
  case isvalid =>
    simp only [execIsvalid, str rfl]
    exact .succeed other
  case mono =>
    simp only [execMono, ts rfl, h.ent rfl, h.msr rfl]
    split
    · exact .raise fun _ => h.msr rfl
    · exact .succeed fun _ => rfl
  case gen =>
    simp only [execGen, now rfl, ent rfl]
    exact .succeed other
  case genm =>
    simp only [execGenm, now rfl, h.ent rfl, h.msr rfl]
    split
    · exact .raise fun _ => h.msr rfl
    · exact .succeed fun _ => rfl
  case gents =>
    simp only [execGents, ts rfl, ent rfl]
    exact .ite (.raise other) (.succeed other)
  case xts =>
    simp only [execXts, str rfl]
    exact .ite (.succeed other) (.raise other)
  case xrnd =>
    simp only [execXrnd, str rfl]
    exact .ite (.succeed other) (.raise other)
  case norm =>
    simp only [execNorm, str rfl]
    exact .ite (.succeed other) (.raise other)
  case touuid =>
    simp only [execTouuid, str rfl]
    exact .ite (.ite (.raise other) (.succeed other)) (.raise other)
  case fromuuid =>
    simp only [execFromuuid, str rfl]
    split
    · exact .raise other
    · exact .succeed other

end Sys2Proof.Machine
end

section
/-! PROOFS. Family 20_memory.md. First the rules of a run and of a step on a request; then the order of strings and the
transition's effect on the sequence of results; then the statements on the acceptance order (20_memory.md R57). -/

namespace Sys2Proof.Machine

-- A run, step by step.

theorem run_succ_eq_next {M : Host.Core} {s t : M.State} {k : Nat} :
    M.run (k + 1) s = .next t ↔ ∃ u, M.step s = .next u ∧ M.run k u = .next t := by
  rw [Host.Core.run]
  cases M.step s <;> simp

/-- What every step keeps, every run keeps. -/
theorem run_keeps {M : Host.Core} {P : M.State → Prop} (keeps : ∀ s t, P s → M.step s = .next t → P t) {k : Nat}
    {s t : M.State} (hs : P s) (h : M.run k s = .next t) : P t := by
  induction k generalizing s with
  | zero =>
    cases h
    exact hs
  | succ k ih =>
    obtain ⟨u, hu, hrun⟩ := run_succ_eq_next.mp h
    exact ih (keeps s u hs hu) hrun

-- A step on a request.

theorem runCommand_finishes (s : State) : ∃ m d r, runCommand s = .next (s.finish m d r) := by
  unfold runCommand
  split
  case h_1 i _ =>
    obtain ⟨m, d, r, he, -⟩ := exec_finishes i s
    exact ⟨m, d, r, he⟩
  case h_2 => exact ⟨_, _, _, rfl⟩

theorem step_present {s : State} {o : Offer} {rest : List Move} (h : s.agenda = .present o :: rest) :
    step s = runCommand (s.accept o rest) := by
  rw [step, h]

/-- Settles O10, by induction on the requests: each step answers the first of them, and puts its exchange on the record. -/
theorem everyRequestIsAnsweredInOrder : Obligations.EveryRequestIsAnsweredInOrder := by
  intro os
  induction os with
  | nil =>
    intro s h
    exact ⟨s, rfl, h, by simp⟩
  | cons o os ih =>
    intro s h
    obtain ⟨m, d, r, answered⟩ := runCommand_finishes (s.accept o (os.map .present))
    obtain ⟨t, hrun, hempty, htrace⟩ := ih ((s.accept o (os.map .present)).finish m d r) rfl
    refine ⟨t, run_succ_eq_next.mpr ⟨_, (step_present h).trans answered, hrun⟩, hempty, ?_⟩
    rw [htrace]
    simp

-- Canonical strings are ordered as their values (R135).

theorem alpha_digit_of_mem : ∀ c ∈ alphabet, alpha (digit c) = c := by decide

theorem digit_lt_digit {c d : Byte} (hc : c ∈ alphabet) (hd : d ∈ alphabet) :
    digit c < digit d ↔ c.toNat < d.toNat := by
  rw [← alpha_lt_alpha _ (digit_lt c) _ (digit_lt d), alpha_digit_of_mem c hc, alpha_digit_of_mem d hd]

/-- Where the leading digits differ, they alone decide the order of two numbers. -/
theorem mul_add_lt_mul_add_iff {a b x y n : Nat} (hx : x < n) (hy : y < n) (hab : a ≠ b) :
    a * n + x < b * n + y ↔ a < b := by
  constructor
  · intro h
    by_contra hle
    have : (b + 1) * n ≤ a * n := Nat.mul_le_mul_right n (by omega)
    linarith
  · intro h
    have : (a + 1) * n ≤ b * n := Nat.mul_le_mul_right n h
    linarith

theorem lexLt_iff_b32dec_lt {s t : List Byte} (len : s.length = t.length) (hs : ∀ c ∈ s, c ∈ alphabet)
    (ht : ∀ c ∈ t, c ∈ alphabet) : lexLt s t = true ↔ b32dec s < b32dec t := by
  induction s generalizing t with
  | nil =>
    cases List.length_eq_zero_iff.mp len.symm
    simp [lexLt]
  | cons c s ih =>
    cases t with
    | nil => cases len
    | cons d t =>
      obtain ⟨hc, hs⟩ := List.forall_mem_cons.mp hs
      obtain ⟨hd, ht⟩ := List.forall_mem_cons.mp ht
      have len : s.length = t.length := Nat.succ.inj len
      rw [lexLt, b32dec_cons, b32dec_cons, len]
      by_cases hcd : c = d
      · rw [if_pos hcd, hcd, Nat.add_lt_add_iff_left]
        exact ih len hs ht
      · have digits : digit c ≠ digit d := fun h => hcd (by rw [← alpha_digit_of_mem c hc, h, alpha_digit_of_mem d hd])
        rw [if_neg hcd, decide_eq_true_iff, ← digit_lt_digit hc hd,
          mul_add_lt_mul_add_iff (len ▸ b32dec_lt s) (b32dec_lt t) digits]

theorem Canonical.lexLt_iff {s t : Text} (hs : Canonical s) (ht : Canonical t) :
    lexLt s.chars t.chars = true ↔ b32dec s.chars < b32dec t.chars :=
  lexLt_iff_b32dec_lt (hs.1.trans ht.1.symm) hs.2 ht.2

-- Decoding what the encoder wrote (R114).

/-- The first `k` characters of a canonical string hold the number without its low digits. -/
theorem b32dec_leading_digits {n : Nat} (hn : n < 2 ^ 130) {k : Nat} (hk : k ≤ 26) :
    b32dec ((List.range k).map fun i => alpha (b32Digit n i)) = n / 2 ^ (5 * (26 - k)) := by
  induction k with
  | zero => exact (Nat.div_eq_of_lt hn).symm
  | succ k ih =>
    have last : b32dec [alpha (b32Digit n k)] = b32Digit n k := by
      simp [b32dec, digit_alpha _ (b32Digit_lt n k)]
    have shift : 2 ^ (5 * (26 - k)) = 2 ^ (5 * (25 - k)) * 32 := by
      rw [show 5 * (26 - k) = 5 * (25 - k) + 5 by omega, pow_add]
      rfl
    rw [List.range_succ, List.map_append, b32dec_append, ih (by omega), List.map_singleton, last, b32Digit_eq, shift,
      ← Nat.div_div_eq_div_mul, Nat.succ_sub_succ]
    exact Nat.div_add_mod' _ 32

theorem b32dec_b32enc {n : Nat} (hn : n < 2 ^ 130) : b32dec (b32enc n).chars = n :=
  (b32dec_leading_digits hn le_rfl).trans (Nat.div_one n)

-- What a command adds to the sequence of monotonic results.

theorem monoStep_packed_lt {m m' : Msr} {now : Int} {e : Rand} {used : Bool}
    (h : monoStep Config.monoOvf m now e = .moved m' used) : m.packed < m'.packed := by
  rw [m.packed_eq, m'.packed_eq]
  have := m.rnd.isLt
  rcases monoStep_cases m now e with ⟨-, hc⟩ | ⟨later, le, hc⟩ | ⟨-, -, hc⟩ | ⟨-, room, hc⟩ <;> cases h.symm.trans hc
  · have : (BitVec.ofNat 48 now.toNat).toNat = now.toNat := by
      rw [BitVec.toNat_ofNat]
      omega
    simp only [this]
    omega
  · have : (m.rnd + 1).toNat = m.rnd.toNat + 1 := by
      rw [BitVec.toNat_add]
      simp
      omega
    simp only [this]
    omega

section
variable {x : Exchange} {i : Instr}

theorem Exchange.monoValue?_of_mono (h : x.instr? = some .mono) : x.monoValue? = x.rsp.val.map (·.toNat) := by
  rw [monoValue?, h]

theorem Exchange.monoValue?_of_genm (h : x.instr? = some .genm) :
    x.monoValue? = x.rsp.str.map fun t => b32dec t.chars := by
  rw [monoValue?, h]

theorem Exchange.monoValue?_of_illegal (h : x.instr? = none) : x.monoValue? = none := by
  rw [monoValue?, h]

/-- Only MONO and GENM have monotonic results (R153). -/
theorem Exchange.monoValue?_of_other (h : x.instr? = some i) (hw : writesMsr i = false) : x.monoValue? = none := by
  rw [monoValue?, h]
  cases i with
  | mono | genm => cases hw
  | _ => rfl

end

/-- The newest exchange `x` either has no monotonic result and left the register `m`, or is a transition of it to `m'` whose
result is the new register value (R153). -/
def FollowsTransition (x : Exchange) (m m' : Msr) : Prop :=
  (x.monoValue? = none ∧ m' = m)
  ∨ ∃ now e used, monoStep Config.monoOvf m now e = .moved m' used ∧ x.monoValue? = some m'.packed

theorem exec_followsTransition {i : Instr} {s t : State} (hi : decode Config.hasUuid s.cur.req.cmd = .instr i)
    (h : exec i s = .next t) : ∃ x, t.trace = x :: s.trace ∧ FollowsTransition x s.msr t.msr := by
  have other (hw : writesMsr i = false) : ∃ x, t.trace = x :: s.trace ∧ FollowsTransition x s.msr t.msr := by
    obtain ⟨m, d, r, he, hm⟩ := exec_finishes i s
    cases he.symm.trans h
    exact ⟨_, rfl, .inl ⟨Exchange.monoValue?_of_other (Exchange.instr?_eq_some hi) hw, hm hw⟩⟩
  cases i with
  | mono =>
    cases hstep : monoStep Config.monoOvf s.msr s.reqTs s.cur.ent with
    | failed k =>
      simp only [exec, execMono, hstep, raise_eq_next] at h
      subst h
      exact ⟨_, rfl, .inl ⟨Exchange.monoValue?_of_mono (Exchange.instr?_eq_some hi), rfl⟩⟩
    | moved m used =>
      cases (exec_mono_moved hstep).symm.trans h
      refine ⟨_, rfl, .inr ⟨_, _, _, hstep, ?_⟩⟩
      rw [Exchange.monoValue?_of_mono (Exchange.instr?_eq_some hi), Response.value_val, ← ofNat_packed, Option.map_some,
        BitVec.toNat_ofNat, Nat.mod_eq_of_lt m.packed_lt]
      rfl
  | genm =>
    cases hstep : monoStep Config.monoOvf s.msr s.nowValue s.cur.ent with
    | failed k =>
      simp only [exec, execGenm, hstep, raise_eq_next] at h
      subst h
      exact ⟨_, rfl, .inl ⟨Exchange.monoValue?_of_genm (Exchange.instr?_eq_some hi), rfl⟩⟩
    | moved m used =>
      cases (exec_genm_moved hstep).symm.trans h
      refine ⟨_, rfl, .inr ⟨_, _, _, hstep, ?_⟩⟩
      rw [Exchange.monoValue?_of_genm (Exchange.instr?_eq_some hi), Response.text_str, Option.map_some,
        b32dec_b32enc (m.packed_lt.trans (by decide))]
      rfl
  | _ => exact other rfl

-- The sequence of monotonic results (R153, R154).

theorem SequenceInv.le_packed {s : State} (h : SequenceInv s) : ∀ v ∈ monoValues s.trace ++ [0], v ≤ s.msr.packed := by
  obtain ⟨falls, newest⟩ := h
  obtain ⟨older, split⟩ := List.head?_eq_some_iff.mp newest
  rw [split] at falls ⊢
  obtain ⟨below, -⟩ := List.pairwise_cons.mp falls
  exact List.forall_mem_cons.mpr ⟨le_rfl, fun v hv => (below v hv).le⟩

theorem SequenceInv.cons {s t : State} {x : Exchange} (hs : SequenceInv s) (ht : t.trace = x :: s.trace)
    (hx : FollowsTransition x s.msr t.msr) : SequenceInv t := by
  unfold SequenceInv
  rw [ht]
  rcases hx with ⟨none, kept⟩ | ⟨now, e, used, moved, result⟩
  · rw [monoValues, List.filterMap_cons_none none, kept]
    exact hs
  · rw [monoValues, List.filterMap_cons_some result]
    refine ⟨List.pairwise_cons.mpr ⟨fun v hv => ?_, hs.1⟩, rfl⟩
    exact (hs.le_packed v hv).trans_lt (monoStep_packed_lt moved)

theorem inv_afterReset (rest : List Move) : Inv (State.afterReset rest) := (invariantHoldsAtReset.2.2 rest).1

theorem SequenceInv.step {s t : State} (hs : SequenceInv s) (h : step s = .next t) : SequenceInv t := by
  rcases step_cases h with ⟨-, rfl⟩ | ⟨rest, -, rfl⟩ | ⟨o, rest, i, -, hi, he⟩ | ⟨o, rest, why, -, hw, rfl⟩
  · exact hs
  · exact (inv_afterReset rest).1
  · obtain ⟨x, ht, hx⟩ := exec_followsTransition (s := s.accept o rest) hi he
    exact hs.cons ht hx
  · exact hs.cons rfl (.inl ⟨Exchange.monoValue?_of_illegal (Exchange.instr?_eq_none hw), rfl⟩)

theorem Inv.step {s t : State} (hs : Inv s) (h : Machine.step s = .next t) : Inv t :=
  ⟨hs.1.step h, traceKeptByEveryStep s t hs.2 h⟩

theorem SequenceInv.strictly_falls {s : State} (h : SequenceInv s) : (monoValues s.trace).Pairwise (· > ·) :=
  (List.pairwise_append.mp h.1).1

theorem SequenceInv.pos {s : State} (h : SequenceInv s) : ∀ v ∈ monoValues s.trace, 0 < v := by
  obtain ⟨-, -, above⟩ := List.pairwise_append.mp h.1
  exact fun v hv => above v hv 0 (List.mem_singleton.mpr rfl)

/-- The strings that GENM returned are canonical, so they are ordered as the results they show. -/
theorem Inv.genm_strings_ordered {s : State} (h : Inv s) :
    ((s.trace.filter fun x => x.instr? == some .genm).filterMap (fun x => x.rsp.str)).Pairwise
      (fun later before => lexLt before.chars later.chars = true) := by
  obtain ⟨sequence, lawful⟩ := h
  have falls := List.pairwise_filterMap.mp sequence.strictly_falls
  rw [List.pairwise_filterMap, List.pairwise_filter]
  refine falls.imp_of_mem ?_
  intro later before hl hb falls genmL genmB t ht u hu
  rw [beq_iff_eq] at genmL genmB
  have canonical {x : Exchange} {w : Text} (hx : x ∈ s.trace) (genm : x.instr? = some .genm) (hw : x.rsp.str = some w) :
      Canonical w := (lawful x hx).canonical w hw (by rw [genm]; decide)
  have value {x : Exchange} {w : Text} (genm : x.instr? = some .genm) (hw : x.rsp.str = some w) :
      x.monoValue? = some (b32dec w.chars) := by rw [Exchange.monoValue?_of_genm genm, hw, Option.map_some]
  rw [(canonical hb genmB hu).lexLt_iff (canonical hl genmL ht)]
  exact falls _ (value genmL ht) _ (value genmB hu)

/-- Settles O29: the invariant holds at reset and every step keeps it, so every run ends with it. -/
theorem monotonicRunStrictlyIncreases : Obligations.MonotonicRunStrictlyIncreases := by
  intro a k t h
  have inv : Inv t := run_keeps (fun _ _ hs => hs.step) (inv_afterReset a) h
  have ⟨sequence, _⟩ := inv
  exact ⟨sequence.strictly_falls, sequence.pos, inv.genm_strings_ordered⟩

end Sys2Proof.Machine
end

section
/-! PROOFS. Family 30_encoding.md. The decoder is the encoder's inverse (R71, R72), said once for both values of
`HAS_UUID`; then the three statements on command words. -/

namespace Sys2Proof

/-- A row of the map compares all eight bits with the word that the encoder gives for its command (R72). -/
theorem opcodeMap_row {r : OpcodeRow} (h : r ∈ opcodeMap) : r.mask = BitVec.allOnes 8 ∧ r.pattern = encode r.instr := by
  have rows : ∀ r ∈ opcodeMap, r.mask = BitVec.allOnes 8 ∧ r.pattern = encode r.instr := by decide
  exact rows r h

theorem lookupWord_encode (i : Instr) : lookupWord (encode i) = some i := by
  cases i <;> decide

theorem encode_injective : Function.Injective encode := fun i j h => by
  have same := congrArg lookupWord h
  rwa [lookupWord_encode, lookupWord_encode, Option.some.injEq] at same

theorem lookupWord_eq_some {w : CommandWord} {i : Instr} : lookupWord w = some i ↔ w = encode i := by
  constructor
  · intro h
    obtain ⟨r, found, rfl⟩ := Option.map_eq_some_iff.mp h
    obtain ⟨mask, pattern⟩ := opcodeMap_row (List.mem_of_find?_eq_some found)
    have admits : r.admits w = true := List.find?_some (p := fun r => OpcodeRow.admits r w) found
    rwa [OpcodeRow.admits, mask, pattern, BitVec.and_allOnes, beq_iff_eq] at admits
  · rintro rfl
    exact lookupWord_encode i

/-- The decoder, for either value of `HAS_UUID` (R72, R73). -/
theorem decode_eq_instr {hasUuid : Bool} {w : CommandWord} {i : Instr} :
    decode hasUuid w = .instr i ↔ w = encode i ∧ i.wellFormed hasUuid = true := by
  rw [← lookupWord_eq_some]
  unfold decode
  split
  case h_1 found => simp [found]
  case h_2 j found =>
    rw [found, Option.some.injEq]
    split
    case isTrue wf =>
      constructor
      · rintro ⟨⟩
        exact ⟨rfl, wf⟩
      · rintro ⟨rfl, -⟩
        rfl
    case isFalse wf =>
      refine ⟨nofun, ?_⟩
      rintro ⟨rfl, wf'⟩
      exact absurd wf' wf

/-- With unit UU present every command is one of the block's. -/
@[simp] theorem Instr.wellFormed_hasUuid (i : Instr) : i.wellFormed Config.hasUuid = true := by
  cases i <;> rfl

/-- Without unit UU the block has the commands whose word is none of that unit's two. -/
theorem Instr.wellFormed_false {i : Instr} : i.wellFormed false = true ↔ encode i ≠ 0x60#8 ∧ encode i ≠ 0x61#8 := by
  cases i <;> decide

theorem decode_hasUuid_eq_instr {w : CommandWord} {i : Instr} :
    decode Config.hasUuid w = .instr i ↔ w = encode i := by
  rw [decode_eq_instr, Instr.wellFormed_hasUuid, and_iff_left rfl]

/-- A word that the encoder never gives is illegal (R73). -/
theorem decode_illegal_of_forall_ne {w : CommandWord} (h : ∀ i, w ≠ encode i) (hasUuid : Bool) :
    ∃ why, decode hasUuid w = .illegal why := by
  cases hd : decode hasUuid w with
  | instr i => exact absurd (decode_eq_instr.mp hd).1 (h i)
  | illegal why => exact ⟨why, rfl⟩

theorem isIllegal_decode_eq_false {hasUuid : Bool} {w : CommandWord} :
    (decode hasUuid w).isIllegal = false ↔ ∃ i, w = encode i ∧ i.wellFormed hasUuid = true := by
  simp only [← decode_eq_instr]
  cases decode hasUuid w <;> simp [Decoded.isIllegal]

-- The count of the illegal words.

/-- The commands of a block with this value of `HAS_UUID`, in the order of the map. -/
def commands (hasUuid : Bool) : List Instr := (opcodeMap.map (·.instr)).filter (·.wellFormed hasUuid)

theorem mem_commands {hasUuid : Bool} {i : Instr} : i ∈ commands hasUuid ↔ i.wellFormed hasUuid = true := by
  have mapped : i ∈ opcodeMap.map (·.instr) := by cases i <;> decide
  rw [commands, List.mem_filter, and_iff_right mapped]

theorem commands_nodup (hasUuid : Bool) : (commands hasUuid).Nodup :=
  List.Nodup.filter _ (by decide)

/-- The legal words are the words of the block's commands, each once. -/
theorem legal_words_perm (hasUuid : Bool) :
    ((List.range 256).filter fun n => !(decode hasUuid (BitVec.ofNat 8 n)).isIllegal).Perm
      ((commands hasUuid).map fun i => (encode i).toNat) := by
  have distinct : ((commands hasUuid).map fun i => (encode i).toNat).Nodup :=
    (commands_nodup hasUuid).map (BitVec.toNat_injective.comp encode_injective)
  rw [List.perm_ext_iff_of_nodup (List.nodup_range.filter _) distinct]
  intro n
  simp only [List.mem_filter, List.mem_range, Bool.not_eq_true', isIllegal_decode_eq_false, List.mem_map, mem_commands]
  constructor
  · rintro ⟨lt, i, hw, wf⟩
    exact ⟨i, wf, by rw [← hw, BitVec.toNat_ofNat, Nat.mod_eq_of_lt lt]⟩
  · rintro ⟨i, wf, rfl⟩
    exact ⟨(encode i).isLt, i, by rw [BitVec.ofNat_toNat, BitVec.setWidth_eq], wf⟩

/-- Every word that is not the word of one of the block's commands is illegal (R73). -/
theorem illegal_words_length (hasUuid : Bool) :
    ((List.range 256).filter fun n => (decode hasUuid (BitVec.ofNat 8 n)).isIllegal).length
      = 256 - (commands hasUuid).length := by
  have split := List.length_eq_length_filter_add (l := List.range 256)
    fun n => (decode hasUuid (BitVec.ofNat 8 n)).isIllegal
  rw [(legal_words_perm hasUuid).length_eq, List.length_range, List.length_map] at split
  omega

/-- The two fields of the encoder's word (R71). -/
theorem encode_fields (i : Instr) :
    (encode i).extractLsb' 4 4 = i.unit.code ∧ (encode i).extractLsb' 0 4 = i.function :=
  ⟨BitVec.extractLsb'_append_eq_left, BitVec.extractLsb'_append_eq_right⟩

namespace Machine

/-- An illegal word ends with `IllegalCommand`: no draw, `MSR` as it was (R73, R224). -/
theorem runCommand_of_illegal {s : State} {why : IllegalWord} (h : s.decoded = .illegal why) :
    runCommand s = .next (s.finish s.msr Draws.nothing (Response.code .illegalCommand)) := by
  rw [runCommand, h]
  rfl

/-- Settles O1: the table is read off row by row, and the decoder gives a command for the encoder's word of it alone. -/
theorem commandWordsDecodeAsTabled : Obligations.CommandWordsDecodeAsTabled :=
  ⟨by decide, fun _ _ => decode_hasUuid_eq_instr⟩

/-- Settles O2: a word that decodes is the encoder's, which is made of the two fields. -/
theorem wordHoldsUnitAndFunction : Obligations.WordHoldsUnitAndFunction := by
  refine ⟨fun w i h => ?_, rfl, rfl, rfl, rfl, rfl, rfl⟩
  rw [decode_hasUuid_eq_instr.mp h]
  exact encode_fields i

/-- Settles O3: fifteen of the 256 words are commands, thirteen without unit UU, and a word the encoder
never gives runs as the failure of an illegal one. -/
theorem otherWordsFailAsIllegal : Obligations.OtherWordsFailAsIllegal := by
  refine ⟨illegal_words_length true, illegal_words_length false, fun w i => ?_, fun s o rest ha hw => ?_⟩
  · rw [decode_eq_instr, Instr.wellFormed_false]
    exact and_congr_right fun h => by rw [h]
  · obtain ⟨why, illegal⟩ := decode_illegal_of_forall_ne hw Config.hasUuid
    have decoded : (s.accept o rest).decoded = .illegal why := illegal
    rw [step_present ha, runCommand_of_illegal decoded]
    rfl

end Machine
end Sys2Proof
end

section
/-! PROOFS. Family 40_base32_codec.md. Encoding what the decoder read, the size of an operand's value, and letter case;
then the two commands of unit B32 on each of their paths; then the six statements. -/

namespace Sys2Proof.Machine

-- The value of a string and its characters (R110, R111).

/-- The digits that the encoder writes for the value of a 26-character string are the string's own. -/
theorem b32Digit_b32dec {s : List Byte} (len : s.length = 26) {i : Nat} (hi : i < s.length) :
    b32Digit (b32dec s) i = digit s[i] := by
  have own := b32dec_div_mod s i hi
  rw [len, List.getD_eq_getElem s 0 hi] at own
  rw [b32Digit_eq, pow_mul]
  exact own

/-- Encoding undoes decoding, up to letter case (R114). -/
theorem b32enc_b32dec {s : List Byte} (len : s.length = 26) (hs : ∀ c ∈ s, inAlpha c = true) :
    (b32enc (b32dec s)).chars = s.map fold := by
  refine List.ext_getElem (by simp [len]) fun i _ hi => ?_
  have hi : i < s.length := by simpa using hi
  calc (b32enc (b32dec s)).chars[i] = alpha (b32Digit (b32dec s) i) := by simp [b32enc]
    _ = alpha (digit s[i]) := by rw [b32Digit_b32dec len hi]
    _ = fold s[i] := alpha_digit (hs _ (List.getElem_mem hi))
    _ = (s.map fold)[i] := by rw [List.getElem_map]

/-- The value of a string operand, of at most 36 characters, fits the 180 bits of the `NUM` field (R113). -/
theorem State.b32dec_reqStr_lt (s : State) : b32dec s.reqStr < 2 ^ 180 :=
  calc b32dec s.reqStr < 32 ^ s.reqStr.length := b32dec_lt s.reqStr
    _ ≤ 32 ^ 36 := Nat.pow_le_pow_right (by decide) s.cur.req.str.length_le

-- Letter case (R77, R115).

theorem fold_fold : ∀ c : Byte, fold (fold c) = fold c := by decide

theorem fold_lowerCase : ∀ c : Byte, fold (lowerCase c) = fold c := by decide

theorem digit_eq_of_fold_eq {c d : Byte} (h : fold c = fold d) : digit c = digit d := by
  rw [digit, digit, h]

/-- Decoding sees a character only through its folded form. -/
theorem b32dec_map {f : Byte → Byte} (hf : ∀ c, fold (f c) = fold c) (s : List Byte) : b32dec (s.map f) = b32dec s := by
  induction s with
  | nil => rfl
  | cons c s ih => rw [List.map_cons, b32dec_cons, b32dec_cons, ih, List.length_map, digit_eq_of_fold_eq (hf c)]

-- The two commands, path by path (R112, R113).

section
variable {s : State}

theorem exec_enc_of_overflow (h : 2 ^ 130 ≤ s.reqNum) :
    exec .enc s = .next (s.finish s.msr Draws.nothing (Response.code .valueOverflow)) :=
  if_pos h

theorem exec_enc_of_fits (h : s.reqNum < 2 ^ 130) :
    exec .enc s = .next (s.finish s.msr Draws.nothing (Response.text (b32enc s.reqNum))) :=
  if_neg (Nat.not_le.mpr h)

theorem exec_dec_of_invalid (h : ∃ c ∈ s.reqStr, inAlpha c = false) :
    exec .dec s = .next (s.finish s.msr Draws.nothing (Response.code .invalidCharacter)) :=
  if_neg (by simpa using h)

theorem exec_dec_of_valid (h : ∀ c ∈ s.reqStr, inAlpha c = true) :
    exec .dec s = .next (s.finish s.msr Draws.nothing (Response.number (BitVec.ofNat 180 (b32dec s.reqStr)))) :=
  if_pos (List.all_eq_true.mpr h)

end

/-- Settles O15: the encoder's digits are those of the value, and the symbol of a character's digit is its upper case. -/
theorem codecRoundTrip : Obligations.CodecRoundTrip :=
  ⟨fun _ hv => b32dec_b32enc hv, fun _ len hs => b32enc_b32dec len hs⟩

/-- Settles O12: below 2^130 the narrower number is the operand itself, and the encoder shows it. -/
theorem encRendersNumber : Obligations.EncRendersNumber := by
  refine ⟨by decide, fun s => ⟨exec_enc_of_overflow, fun fits => ⟨_, b32enc_shows ?_, exec_enc_of_fits fits⟩⟩⟩
  rw [BitVec.toNat_setWidth]
  exact Nat.mod_eq_of_lt fits

/-- Settles O13: the value fits the 180-bit field, so writing it there cuts nothing off. -/
theorem decReadsPositionalValue : Obligations.DecReadsPositionalValue := by
  refine ⟨by decide, fun s => ⟨exec_dec_of_invalid, fun valid => ⟨_, ?_, exec_dec_of_valid valid⟩⟩⟩
  rw [BitVec.toNat_ofNat, Nat.mod_eq_of_lt s.b32dec_reqStr_lt, b32dec_eq_digitSum]

/-- Settles O16: both changes of case keep the folded form. -/
theorem decodeIgnoresCase : Obligations.DecodeIgnoresCase :=
  fun s _ => ⟨b32dec_map fold_fold s, b32dec_map fold_lowerCase s⟩

/-- Settles O17: canonical strings are ordered as what they decode to, which is the encoded number. -/
theorem encodingKeepsOrder : Obligations.EncodingKeepsOrder := by
  intro a b ha hb
  rw [(b32enc_canonical a).lexLt_iff (b32enc_canonical b), b32dec_b32enc ha, b32dec_b32enc hb]

/-- Settles O18: the digit in front is 0, and so is its share of the value. -/
theorem leadingZeroIsInvisible : Obligations.LeadingZeroIsInvisible := by
  intro s _
  rw [b32dec_cons, digit_alpha 0 (by decide), Nat.zero_mul, Nat.zero_add]

end Sys2Proof.Machine
end

section
/-! PROOFS. Family 41_bit_packer.md. First how the two functions of the packer undo each other and order values; then
the fields as bit vectors and the two commands on each of their paths; then the four statements. -/

namespace Sys2Proof.Machine

-- The two functions of the packer (R130, R131, R134).

theorem unpackTs_pack (t : Nat) {r : Nat} (hr : r < 2 ^ 80) : unpackTs (pack t r) = t := by
  rw [unpackTs_eq, pack_eq hr]
  omega

theorem unpackRnd_pack (t : Nat) {r : Nat} (hr : r < 2 ^ 80) : unpackRnd (pack t r) = r := by
  rw [unpackRnd_eq, pack_eq hr]
  omega

/-- The timestamp half of a 128-bit value fits its 48-bit field. -/
theorem unpackTs_lt_of_lt_value {v : Nat} (h : v < 2 ^ 128) : unpackTs v < 2 ^ 48 := by
  rw [unpackTs_eq]
  omega

/-- The fields of any value give it back, whether or not its timestamp is in range. -/
theorem pack_unpack (v : Nat) : pack (unpackTs v) (unpackRnd v) = v := by
  rw [pack_eq (unpackRnd_lt v), unpackTs_eq, unpackRnd_eq]
  exact Nat.div_add_mod' v _

/-- Values are ordered by timestamp, then by random field (R135). -/
theorem lt_iff_fields_lt (a b : Nat) :
    a < b ↔ unpackTs a < unpackTs b ∨ (unpackTs a = unpackTs b ∧ unpackRnd a < unpackRnd b) := by
  simp only [unpackTs_eq, unpackRnd_eq]
  omega

-- The fields as bit vectors (R22, R78).

theorem toNat_extractLsb'_zero_of_lt {w n : Nat} {x : BitVec w} (h : x.toNat < 2 ^ n) :
    (x.extractLsb' 0 n).toNat = x.toNat := by
  rw [BitVec.extractLsb'_toNat, Nat.shiftRight_zero, Nat.mod_eq_of_lt h]

/-- A signed timestamp within the range is the number that its field holds. -/
theorem State.toNat_reqTs {s : State} (h : 0 ≤ s.reqTs) : s.reqTs.toNat = s.cur.req.ts.toNat := by
  rw [State.reqTs, BitVec.toInt_eq_toNat_of_lt (BitVec.toInt_pos_iff.mp h), Int.toNat_natCast]

/-- The two fields side by side are the packed value (R130). -/
theorem append_eq_ofNat_pack (t : Millis) (r : Rand) : t ++ r = BitVec.ofNat 128 (pack t.toNat r.toNat) :=
  (ofNat_packed ⟨t, r⟩).symm

theorem toNat_extractLsb'_ts (v : Value) : (v.extractLsb' 80 48).toNat = unpackTs v.toNat := by
  rw [BitVec.extractLsb'_toNat]
  exact Nat.mod_eq_of_lt (unpackTs_lt_of_lt_value v.isLt)

theorem toNat_extractLsb'_rnd (v : Value) : (v.extractLsb' 0 80).toNat = unpackRnd v.toNat := by
  rw [BitVec.extractLsb'_toNat, Nat.shiftRight_zero, unpackRnd_eq]

-- The two commands, path by path (R132, R133).

section
variable {s : State}

theorem exec_pack_of_ts_out (h : s.reqTs < 0 ∨ 2 ^ 48 - 1 < s.reqTs) :
    exec .pack s = .next (s.finish s.msr Draws.nothing (Response.code .timestampOutOfRange)) :=
  if_pos ((tsOutOfRange_iff s.reqTs).mpr h)

theorem exec_pack_of_ts_in (low : 0 ≤ s.reqTs) (high : s.reqTs ≤ 2 ^ 48 - 1) :
    exec .pack s = if Config.rndMax < s.reqRnd then raise s .randomOutOfRange none
      else succeed s s.msr Draws.nothing (Response.value (BitVec.ofNat 128 (pack s.reqTs.toNat s.reqRnd))) :=
  if_neg (ne_true_of_eq_false ((tsOutOfRange_eq_false s.reqTs).mpr ⟨low, high⟩))

theorem exec_pack_of_rnd_out (low : 0 ≤ s.reqTs) (high : s.reqTs ≤ 2 ^ 48 - 1) (out : 2 ^ 80 - 1 < s.reqRnd) :
    exec .pack s = .next (s.finish s.msr Draws.nothing (Response.code .randomOutOfRange)) :=
  (exec_pack_of_ts_in low high).trans (if_pos out)

/-- Both fields fit, so their low bits are the whole of them: nothing is truncated. -/
theorem exec_pack_of_fits (low : 0 ≤ s.reqTs) (high : s.reqTs ≤ 2 ^ 48 - 1) (fits : s.reqRnd ≤ 2 ^ 80 - 1) :
    exec .pack s = .next (s.finish s.msr Draws.nothing
      (Response.value (s.cur.req.ts.extractLsb' 0 48 ++ s.cur.req.rnd.extractLsb' 0 80))) := by
  have number := State.toNat_reqTs low
  have ts : (s.cur.req.ts.extractLsb' 0 48).toNat = s.reqTs.toNat := by
    rw [toNat_extractLsb'_zero_of_lt (by omega), number]
  have rnd : (s.cur.req.rnd.extractLsb' 0 80).toNat = s.reqRnd :=
    toNat_extractLsb'_zero_of_lt (Nat.lt_of_le_pred (by decide) fits)
  rw [append_eq_ofNat_pack, ts, rnd]
  exact (exec_pack_of_ts_in low high).trans (if_neg (Nat.not_lt.mpr fits))

theorem exec_unpack :
    exec .unpack s = .next (s.finish s.msr Draws.nothing
      (Response.fields (BitVec.ofNat 64 (unpackTs s.reqVal)) (BitVec.ofNat 128 (unpackRnd s.reqVal)))) :=
  rfl

end

/-- Settles O19: the timestamp is tested first, and operands in range are their own low 48 and 80 bits. -/
theorem packJoinsFields : Obligations.PackJoinsFields :=
  ⟨by decide, fun _ => ⟨exec_pack_of_ts_out, exec_pack_of_rnd_out, exec_pack_of_fits⟩⟩

/-- Settles O21: both ways read `pack` as `t * 2 ^ 80 + r`, and the split as its quotient and remainder. -/
theorem packUnpackInverse : Obligations.PackUnpackInverse := by
  refine ⟨fun t r _ hr => ?_, fun v hv => ?_⟩
  · have hr : r < 2 ^ 80 := by omega
    exact ⟨unpackTs_pack t hr, unpackRnd_pack t hr⟩
  · have ts := unpackTs_lt_of_lt_value (v := v) (by omega)
    exact ⟨Nat.le_pred_of_lt ts, Nat.le_pred_of_lt (unpackRnd_lt v), pack_unpack v⟩

/-- Settles O22: the order of values is that of quotient and remainder, and the encoder keeps it. -/
theorem valueOrderIsFieldOrder : Obligations.ValueOrderIsFieldOrder := by
  refine ⟨fun a b ha hb => ⟨lt_iff_fields_lt a b, encodingKeepsOrder a b (by omega) (by omega)⟩,
    fun t1 t2 r1 r2 ht ht2 hr1 hr2 => ?_⟩
  have hr1 : r1 < 2 ^ 80 := by omega
  have hr2 : r2 < 2 ^ 80 := by omega
  have v1 : pack t1 r1 < 2 ^ 128 := pack_lt (by omega) hr1
  have v2 : pack t2 r2 < 2 ^ 128 := pack_lt (by omega) hr2
  refine (encodingKeepsOrder _ _ (by omega) (by omega)).mp ((lt_iff_fields_lt _ _).mpr (.inl ?_))
  rwa [unpackTs_pack t1 hr1, unpackTs_pack t2 hr2]

/-- Settles O20: each result is zero-extended from bits that hold the same number. -/
theorem unpackSplitsFields : Obligations.UnpackSplitsFields := by
  refine ⟨by decide, fun s => ?_⟩
  rw [← BitVec.ofNat_toNat, ← BitVec.ofNat_toNat, toNat_extractLsb'_ts, toNat_extractLsb'_rnd]
  exact exec_unpack

end Sys2Proof.Machine
end

section
/-! PROOFS. Family 42_validator.md. The two commands that answer whether a string is well-formed, with R140 written out
in their answer; that DEC accepts such a string; then the two statements. -/

namespace Sys2Proof.Machine

section
variable (s : State)

theorem exec_chk :
    exec .chk s = .next (s.finish s.msr Draws.nothing
      (Response.bool (decide (s.reqStr.length = 26 ∧ ∀ c ∈ s.reqStr, fold c ∈ alphabet)))) := by
  rw [← wellFormedText_eq_decide]
  rfl

/-- CHK and ISVALID differ only in the command word (R141, R173). -/
theorem exec_isvalid_eq_exec_chk : exec .isvalid s = exec .chk s := rfl

end

/-- DEC asks only for the alphabet, which is the second half of well-formedness (R113, R140). -/
theorem exec_dec_of_fold_mem {s : State} (h : ∀ c ∈ s.reqStr, fold c ∈ alphabet) :
    exec .dec s = .next (s.finish s.msr Draws.nothing (Response.number (BitVec.ofNat 180 (b32dec s.reqStr)))) :=
  exec_dec_of_valid fun c hc => (inAlpha_iff_fold_mem c).mpr (h c hc)

/-- Settles O39: ISVALID answers what CHK answers, and DEC succeeds on a string over the alphabet. -/
theorem isvalidTestsLengthAndAlphabet : Obligations.IsvalidTestsLengthAndAlphabet :=
  ⟨by decide, fun s => ⟨(exec_isvalid_eq_exec_chk s).trans (exec_chk s), fun ⟨_, valid⟩ =>
    ⟨_, _, exec_dec_of_fold_mem valid, State.finish_lastRsp .., Response.number_err _⟩⟩⟩

/-- Settles O23: CHK answers `wellformed` of its operand, which is R140's test of length and alphabet. -/
theorem chkTestsLengthAndAlphabet : Obligations.ChkTestsLengthAndAlphabet :=
  ⟨by decide, exec_chk⟩

end Sys2Proof.Machine
end

section
/-! PROOFS. Family 43_monotonic.md. First the paths of MONO and GENM that fail, beside those that succeed; then what a
transition that succeeds does to the register, under either policy; then what a step on a request does to it and records
(R152, R153, R171), said once for all commands; then the eight statements. -/

namespace Sys2Proof.Machine

-- The two ways in which a transition fails, and with it MONO and GENM (R151).

theorem monoStep_outOfRange {m : Msr} {now : Int} (e : Rand) (out : 2 ^ 48 - 1 < now) :
    monoStep Config.monoOvf m now e = .failed .timestampOutOfRange := by
  have := m.ts.isLt
  rcases monoStep_cases m now e with ⟨-, h⟩ | ⟨-, h, -⟩ | ⟨h, -⟩ | ⟨h, -⟩
  · exact h
  · omega
  · omega
  · omega

theorem monoStep_exhausted {m : Msr} {now : Int} (e : Rand) (notLater : now ≤ m.ts.toNat)
    (full : m.rnd.toNat = 2 ^ 80 - 1) : monoStep Config.monoOvf m now e = .failed .monotonicOverflow := by
  have := m.ts.isLt
  rcases monoStep_cases m now e with ⟨h, -⟩ | ⟨h, -⟩ | ⟨-, -, h⟩ | ⟨-, h, -⟩
  · omega
  · omega
  · exact h
  · omega

section
variable {s : State} {k : ErrKind}

theorem exec_mono_failed (h : monoStep Config.monoOvf s.msr s.reqTs s.cur.ent = .failed k) :
    exec .mono s = .next (s.finish s.msr Draws.nothing (Response.code k)) := by
  simp only [exec, execMono, h, raise, Draws.nothing]

theorem exec_genm_failed (h : monoStep Config.monoOvf s.msr s.nowValue s.cur.ent = .failed k) :
    exec .genm s = .next (s.finish s.msr (Draws.clock s.cur) (Response.code k)) := by
  simp only [exec, execGenm, h, raise, Draws.clock]

theorem exec_mono_outOfRange (out : 2 ^ 48 - 1 < s.reqTs) :
    exec .mono s = .next (s.finish s.msr Draws.nothing (Response.code .timestampOutOfRange)) :=
  exec_mono_failed (monoStep_outOfRange _ out)

theorem exec_mono_exhausted (notLater : s.reqTs ≤ s.msr.ts.toNat) (full : s.msr.rnd.toNat = 2 ^ 80 - 1) :
    exec .mono s = .next (s.finish s.msr Draws.nothing (Response.code .monotonicOverflow)) :=
  exec_mono_failed (monoStep_exhausted _ notLater full)

theorem exec_genm_exhausted (notLater : s.nowValue ≤ s.msr.ts.toNat) (full : s.msr.rnd.toNat = 2 ^ 80 - 1) :
    exec .genm s = .next (s.finish s.msr (Draws.clock s.cur) (Response.code .monotonicOverflow)) :=
  exec_genm_failed (monoStep_exhausted _ (by exact_mod_cast notLater) full)

end

-- What a transition that succeeds does to the register (R151, R153).

theorem Msr.toNat_rnd_add_one {m : Msr} (room : m.rnd.toNat < 2 ^ 80 - 1) : (m.rnd + 1).toNat = m.rnd.toNat + 1 :=
  BitVec.toNat_add_of_lt (y := 1#80) (by simp; omega)

theorem Msr.packed_increment {m : Msr} (room : m.rnd.toNat < 2 ^ 80 - 1) :
    Msr.packed { ts := m.ts, rnd := m.rnd + 1 } = m.packed + 1 := by
  rw [Msr.packed_eq, Msr.packed_eq, m.toNat_rnd_add_one room, Nat.add_assoc]

theorem Msr.unpackTs_packed (m : Msr) : unpackTs m.packed = m.ts.toNat := unpackTs_pack _ m.rnd.isLt

theorem Msr.unpackRnd_packed (m : Msr) : unpackRnd m.packed = m.rnd.toNat := unpackRnd_pack _ m.rnd.isLt

/-- The new timestamp is behind neither the old one nor the candidate; where it is the old one, the random field has
grown by one. -/
theorem monoStep_moved_fields {m m' : Msr} {now : Int} {e : Rand} {used : Bool}
    (h : monoStep Config.monoOvf m now e = .moved m' used) :
    m.ts.toNat ≤ m'.ts.toNat ∧ now ≤ m'.ts.toNat ∧ (m'.ts = m.ts → m'.rnd.toNat = m.rnd.toNat + 1) := by
  rcases monoStep_cases m now e with ⟨-, hc⟩ | ⟨later, le, hc⟩ | ⟨-, -, hc⟩ | ⟨notLater, room, hc⟩ <;>
    cases h.symm.trans hc
  · have ts : (BitVec.ofNat 48 now.toNat).toNat = now.toNat := by
      rw [BitVec.toNat_ofNat]
      omega
    refine ⟨by simp only [ts]; omega, by simp only [ts]; omega, fun same => ?_⟩
    have := congrArg BitVec.toNat same
    simp only [ts] at this
    omega
  · exact ⟨le_rfl, notLater, fun _ => m.toNat_rnd_add_one room⟩

/-- Under policy `advance` an exhausted register below the last millisecond moves on by one virtual millisecond; everything
else is as under `fail`, or a failure (decision D10). -/
theorem monoStep_advance_cases (m : Msr) (now : Int) (e : Rand) :
    monoStep .advance m now e = monoStep .fail m now e
    ∨ monoStep .advance m now e = .failed .timestampOutOfRange
    ∨ (m.ts.toNat ≠ 2 ^ 48 - 1 ∧ monoStep .advance m now e = .moved { ts := m.ts + 1, rnd := e } true) := by
  have sameMillisecond : nextInPeriod .advance m e = nextInPeriod .fail m e
      ∨ nextInPeriod .advance m e = .failed .timestampOutOfRange
      ∨ (m.ts.toNat ≠ 2 ^ 48 - 1 ∧ nextInPeriod .advance m e = .moved { ts := m.ts + 1, rnd := e } true) := by
    simp only [nextInPeriod]
    by_cases full : m.rnd.toNat = Config.rndMax
    · by_cases last : m.ts.toNat = Config.tsMax
      · exact .inr (.inl (by rw [if_pos full, if_pos last]))
      · exact .inr (.inr ⟨last, by rw [if_pos full, if_neg last]⟩)
    · exact .inl (by rw [if_neg full, if_neg full])
  unfold monoStep
  cases compareTime now m.ts with
  | later => exact .inl rfl
  | same | earlier => exact sameMillisecond

-- What a step on a request does to the register and what it records (R152, R153, R171).

theorem step_of_instr {s : State} {o : Offer} {rest : List Move} {i : Instr} (ha : s.agenda = .present o :: rest)
    (hi : decode Config.hasUuid o.req.cmd = .instr i) : step s = exec i (s.accept o rest) := by
  rw [step_present ha, runCommand, State.decoded, State.accept_commandWord, hi]

theorem Offer.candidate?_of_mono {o : Offer} (h : decode Config.hasUuid o.req.cmd = .instr .mono) :
    o.candidate? = some o.req.ts.toInt := by
  rw [candidate?, h]

theorem Offer.candidate?_of_genm {o : Offer} (h : decode Config.hasUuid o.req.cmd = .instr .genm) :
    o.candidate? = some (o.now.toNat : Int) := by
  rw [candidate?, h]

theorem Offer.candidate?_of_illegal {o : Offer} {why : IllegalWord}
    (h : decode Config.hasUuid o.req.cmd = .illegal why) : o.candidate? = none := by
  rw [candidate?, h]

/-- Only MONO and GENM have a candidate (R150). -/
theorem Offer.candidate?_of_other {o : Offer} {i : Instr} (h : decode Config.hasUuid o.req.cmd = .instr i)
    (hw : writesMsr i = false) : o.candidate? = none := by
  rw [candidate?, h]
  cases i with
  | mono | genm => cases hw
  | _ => rfl

/-- The transition that a request asks of the register `m`, where it has a candidate (R150, R151). -/
def Offer.transition? (o : Offer) (m : Msr) : Option MonoStep :=
  o.candidate?.map fun now => monoStep Config.monoOvf m now o.ent

/-- The exchange `x` and the register, `m` before and `m'` after, are what a transition (or none) leads to: the new value in
both where it succeeded, and otherwise no result and the old register (R152, R153). -/
def Exchange.Records (x : Exchange) (m m' : Msr) : Option MonoStep → Prop
  | some (.moved n _) => x.monoValue? = some n.packed ∧ m' = n
  | some (.failed _) => x.monoValue? = none ∧ m' = m
  | none => x.monoValue? = none ∧ m' = m

theorem exec_mono_records {s : State} {outcome : MonoStep} (hi : decode Config.hasUuid s.cur.req.cmd = .instr .mono)
    (h : monoStep Config.monoOvf s.msr s.reqTs s.cur.ent = outcome) :
    ∃ m d r, exec .mono s = .next (s.finish m d r)
      ∧ Exchange.Records { who := s.cur.who, req := s.cur.req, draws := d, rsp := r } s.msr m (some outcome) := by
  cases outcome with
  | failed k => exact ⟨_, _, _, exec_mono_failed h, Exchange.monoValue?_of_mono (Exchange.instr?_eq_some hi), rfl⟩
  | moved n used =>
    refine ⟨_, _, _, exec_mono_moved h, ?_, rfl⟩
    rw [Exchange.monoValue?_of_mono (Exchange.instr?_eq_some hi), Response.value_val, Option.map_some, BitVec.toNat_append]
    rfl

theorem exec_genm_records {s : State} {outcome : MonoStep} (hi : decode Config.hasUuid s.cur.req.cmd = .instr .genm)
    (h : monoStep Config.monoOvf s.msr s.nowValue s.cur.ent = outcome) :
    ∃ m d r, exec .genm s = .next (s.finish m d r)
      ∧ Exchange.Records { who := s.cur.who, req := s.cur.req, draws := d, rsp := r } s.msr m (some outcome) := by
  cases outcome with
  | failed k => exact ⟨_, _, _, exec_genm_failed h, Exchange.monoValue?_of_genm (Exchange.instr?_eq_some hi), rfl⟩
  | moved n used =>
    refine ⟨_, _, _, exec_genm_moved h, ?_, rfl⟩
    rw [Exchange.monoValue?_of_genm (Exchange.instr?_eq_some hi), Response.text_str, Option.map_some,
      b32dec_b32enc (n.packed_lt.trans (by decide))]

/-- A step on a request completes it, and its exchange and the register are those of the transition it asks for. -/
theorem step_records {s : State} {o : Offer} {rest : List Move} (ha : s.agenda = .present o :: rest) :
    ∃ m d r, step s = .next ((s.accept o rest).finish m d r)
      ∧ Exchange.Records { who := o.who, req := o.req, draws := d, rsp := r } s.msr m (o.transition? s.msr) := by
  rw [Offer.transition?]
  cases hd : decode Config.hasUuid o.req.cmd with
  | illegal why =>
    rw [Offer.candidate?_of_illegal hd, step_present ha]
    exact ⟨_, _, _, runCommand_of_illegal hd, Exchange.monoValue?_of_illegal (Exchange.instr?_eq_none hd), rfl⟩
  | instr i =>
    rw [step_of_instr ha hd]
    have other (hw : writesMsr i = false) : ∃ m d r, exec i (s.accept o rest) = .next ((s.accept o rest).finish m d r)
        ∧ Exchange.Records { who := o.who, req := o.req, draws := d, rsp := r } s.msr m
          (o.candidate?.map fun now => monoStep Config.monoOvf s.msr now o.ent) := by
      obtain ⟨m, d, r, he, hm⟩ := exec_finishes i (s.accept o rest)
      rw [Offer.candidate?_of_other hd hw]
      exact ⟨m, d, r, he, Exchange.monoValue?_of_other (Exchange.instr?_eq_some hd) hw, hm hw⟩
    cases i with
    | mono =>
      rw [Offer.candidate?_of_mono hd]
      exact exec_mono_records (s := s.accept o rest) hd rfl
    | genm =>
      rw [Offer.candidate?_of_genm hd]
      exact exec_genm_records (s := s.accept o rest) hd rfl
    | _ => exact other rfl

/-- The same of a step whose newest exchange is given. -/
theorem Exchange.records_of_step {s t : State} {o : Offer} {rest : List Move} {x : Exchange}
    (ha : s.agenda = .present o :: rest) (h : step s = .next t) (hx : t.trace.head? = some x) :
    x.Records s.msr t.msr (o.transition? s.msr) := by
  obtain ⟨m, d, r, he, hr⟩ := step_records ha
  cases he.symm.trans h
  cases hx
  exact hr

section
variable {x : Exchange} {m m' : Msr} {outcome? : Option MonoStep}

theorem Exchange.Records.of_none (h : x.Records m m' outcome?) (hx : x.monoValue? = none) : m' = m := by
  rcases outcome? with _ | ⟨n, used⟩ | k
  · exact h.2
  · exact nomatch hx.symm.trans h.1
  · exact h.2

/-- A monotonic result is the value of the register after a transition that succeeded. -/
theorem Exchange.Records.of_some {v : Nat} (h : x.Records m m' outcome?) (hx : x.monoValue? = some v) :
    v = m'.packed ∧ ∃ used, outcome? = some (.moved m' used) := by
  rcases outcome? with _ | ⟨n, used⟩ | k
  · exact nomatch hx.symm.trans h.1
  · obtain ⟨result, rfl⟩ := h
    exact ⟨Option.some.inj (hx.symm.trans result), used, rfl⟩
  · exact nomatch hx.symm.trans h.1

end

theorem Offer.transition?_eq_some {o : Offer} {m : Msr} {outcome : MonoStep} (h : o.transition? m = some outcome) :
    ∃ now, o.candidate? = some now ∧ monoStep Config.monoOvf m now o.ent = outcome :=
  Option.map_eq_some_iff.mp h

theorem Offer.transition?_of_candidate {o : Offer} {now : Int} (h : o.candidate? = some now) (m : Msr) :
    o.transition? m = some (monoStep Config.monoOvf m now o.ent) := by
  rw [transition?, h, Option.map_some]

/-- Settles O24: each path of MONO is one of the four cases of a transition. -/
theorem monoAppliesTransition : Obligations.MonoAppliesTransition := by
  refine ⟨by decide, fun s => ⟨exec_mono_outOfRange, fun later le => ?_, exec_mono_exhausted, exec_mono_increment⟩⟩
  have nonneg : 0 ≤ s.reqTs := by omega
  have low48 : BitVec.ofNat 48 s.reqTs.toNat = s.cur.req.ts.extractLsb' 0 48 := ofNat_toInt_toNat _ nonneg
  rw [← low48]
  exact exec_mono_newPeriod later le

/-- Settles O25: the newest exchange and the register are those of one transition, or of none. -/
theorem registerFollowsResult : Obligations.RegisterFollowsResult := by
  intro s t o rest x ha h hx
  have records := Exchange.records_of_step ha h hx
  refine ⟨fun v hv => ?_, records.of_none⟩
  obtain ⟨rfl, used, asked⟩ := records.of_some hv
  obtain ⟨now, -, moved⟩ := Offer.transition?_eq_some asked
  obtain ⟨keepsOrder, -, addsOne⟩ := monoStep_moved_fields moved
  exact ⟨t.msr.unpackTs_packed.symm, t.msr.unpackRnd_packed.symm, keepsOrder, addsOne⟩

/-- Settles O26: a step adds no monotonic result or one that exceeds the value `MSR` held, and then `MSR` holds it. -/
theorem sequenceKeptByEveryStep : Obligations.SequenceKeptByEveryStep :=
  fun _ _ hs h => hs.step h

/-- Settles O30: `advance` adds one way to succeed to those of `fail`, and it increases the timestamp. -/
theorem transitionIncreasesUnderEitherPolicy : Obligations.TransitionIncreasesUnderEitherPolicy := by
  intro p m m' now e used h
  cases p with
  | fail => exact monoStep_packed_lt h
  | advance =>
    rcases monoStep_advance_cases m now e with same | failed | ⟨room, moved⟩
    · exact monoStep_packed_lt (same.symm.trans h)
    · exact nomatch failed.symm.trans h
    · cases moved.symm.trans h
      have ts : (m.ts + 1).toNat = m.ts.toNat + 1 := BitVec.toNat_add_of_lt (y := 1#48) (by simp; omega)
      have := m.rnd.isLt
      rw [Msr.packed_eq, Msr.packed_eq, ts]
      omega

/-- Settles O31: the second command finds room in the millisecond that the first one's value holds. -/
theorem sameMillisecondAddsOne : Obligations.SameMillisecondAddsOne := by
  intro s t u before next a b x v c ha h hx hv same hb hc notLater room
  obtain ⟨rfl, -⟩ := (Exchange.records_of_step ha h hx).of_some hv
  rw [← same]
  obtain ⟨m, d, r, he, hr⟩ := step_records hb
  rw [Offer.transition?_of_candidate hc, monoStep_increment next.ent notLater room] at hr
  obtain ⟨result, -⟩ := hr
  refine ⟨_, _, he, rfl, result.trans (congrArg some (Msr.packed_increment room)), ?_, ?_⟩ <;>
    rw [← Msr.packed_increment room]
  · rw [Msr.unpackTs_packed, Msr.unpackTs_packed]
  · rw [Msr.unpackRnd_packed, Msr.unpackRnd_packed, Msr.toNat_rnd_add_one room]

-- The clock values that successful GENM commands saw (R260).

/-- No transition moves the timestamp back, and none is no move. -/
theorem Exchange.Records.ts_le {x : Exchange} {o : Offer} {m m' : Msr} (h : x.Records m m' (o.transition? m)) :
    m.ts.toNat ≤ m'.ts.toNat := by
  cases hx : x.monoValue? with
  | none => rw [h.of_none hx]
  | some v =>
    obtain ⟨-, used, asked⟩ := h.of_some hx
    obtain ⟨now, -, moved⟩ := Offer.transition?_eq_some asked
    exact (monoStep_moved_fields moved).1

/-- GENM succeeds only by a transition, which leaves no candidate ahead of the timestamp. -/
theorem exec_genm_covers_clock (s : State) :
    ∃ m d r, exec .genm s = .next (s.finish m d r) ∧ d.now = some s.cur.now ∧ (r.err = 0 → s.nowValue ≤ m.ts.toNat) := by
  cases hs : monoStep Config.monoOvf s.msr s.nowValue s.cur.ent with
  | failed k =>
    exact ⟨_, _, _, exec_genm_failed hs, rfl, fun ok => absurd (ErrKind.code_eq_zero.mp ok) (monoStep_failed_ne_none hs)⟩
  | moved m used =>
    obtain ⟨-, covered, -⟩ := monoStep_moved_fields hs
    exact ⟨_, _, _, exec_genm_moved hs, rfl, fun _ => by exact_mod_cast covered⟩

theorem ClockInv.cons {s t : State} {x : Exchange} (hs : ClockInv s) (ht : t.trace = x :: s.trace)
    (ts : s.msr.ts.toNat ≤ t.msr.ts.toNat)
    (hx : x.instr? = some .genm → x.rsp.err = 0 → ∀ n, x.draws.now = some n → n.toNat ≤ t.msr.ts.toNat) :
    ClockInv t := by
  intro y hy
  rw [ht, List.mem_cons] at hy
  rcases hy with rfl | hy
  · exact hx
  · exact fun genm ok n hn => (hs y hy genm ok n hn).trans ts

/-- Settles O32: a step never moves the timestamp back, and a GENM that succeeds leaves it at or past its clock value. -/
theorem monotonicTimestampCoversClocks : Obligations.MonotonicTimestampCoversClocks := by
  intro s t hs h
  rcases step_cases h with ⟨-, rfl⟩ | ⟨rest, -, rfl⟩ | ⟨o, rest, i, ha, hi, he⟩ | ⟨o, rest, why, -, hw, rfl⟩
  · exact hs
  · exact (invariantHoldsAtReset.2.2 rest).2
  · obtain ⟨m, d, r, hm, hr⟩ := step_records ha
    cases hm.symm.trans h
    refine hs.cons rfl hr.ts_le fun genm ok n hn => ?_
    rw [Exchange.instr?_eq_some hi] at genm
    cases genm
    obtain ⟨m', d', r', he', clock, covered⟩ := exec_genm_covers_clock (s.accept o rest)
    cases he'.symm.trans he
    cases clock.symm.trans hn
    exact covered ok
  · refine hs.cons rfl le_rfl fun genm => ?_
    rw [Exchange.instr?_eq_none hw] at genm
    cases genm

-- When a command takes its word of entropy (R157, R230).

theorem exec_takes_entropy {i : Instr} {s : State} (h : TakesEntropy s i) :
    ∃ m d r, exec i s = .next (s.finish m d r) ∧ d.ent = some s.cur.ent := by
  cases i with
  | gen => exact ⟨_, _, _, rfl, rfl⟩
  | gents =>
    have inRange : tsOutOfRange s.reqTs = false := (tsOutOfRange_eq_false _).mpr h
    exact ⟨_, _, _, if_neg (ne_true_of_eq_false inRange), rfl⟩
  | mono =>
    obtain ⟨later, le⟩ := h
    exact ⟨_, _, _, exec_mono_newPeriod later le, rfl⟩
  | genm =>
    obtain ⟨t, -, he⟩ := exec_genm_newPeriod h
    exact ⟨_, _, _, he, rfl⟩
  | _ => exact h.elim

theorem exec_takes_no_entropy {i : Instr} {s : State} (h : ¬ TakesEntropy s i) :
    ∃ m d r, exec i s = .next (s.finish m d r) ∧ d.ent = none := by
  have other (hi : ¬ (i = .gen ∨ i = .genm ∨ i = .gents ∨ i = .mono)) :
      ∃ m d r, exec i s = .next (s.finish m d r) ∧ d.ent = none := by
    obtain ⟨m, d, r, he, ⟨drawsEnt, -⟩, -⟩ := exec_endsLawfully i s
    exact ⟨m, d, r, he, by_contra fun drawn => hi (drawsEnt drawn)⟩
  have rnd := s.msr.rnd.isLt
  cases i with
  | gen => exact (h trivial).elim
  | gents =>
    have outOfRange : tsOutOfRange s.reqTs = true :=
      eq_true_of_ne_false fun inRange => h ((tsOutOfRange_eq_false _).mp inRange)
    exact ⟨_, _, _, if_pos outOfRange, rfl⟩
  | mono =>
    by_cases out : 2 ^ 48 - 1 < s.reqTs
    · exact ⟨_, _, _, exec_mono_outOfRange out, rfl⟩
    have notLater : s.reqTs ≤ s.msr.ts.toNat := not_lt.mp fun later => h ⟨later, not_lt.mp out⟩
    by_cases full : s.msr.rnd.toNat = 2 ^ 80 - 1
    · exact ⟨_, _, _, exec_mono_exhausted notLater full, rfl⟩
    · exact ⟨_, _, _, exec_mono_increment notLater (by omega), rfl⟩
  | genm =>
    have notLater : s.nowValue ≤ s.msr.ts.toNat := not_lt.mp h
    by_cases full : s.msr.rnd.toNat = 2 ^ 80 - 1
    · exact ⟨_, _, _, exec_genm_exhausted notLater full, rfl⟩
    · obtain ⟨t, -, he⟩ := exec_genm_increment notLater (by omega)
      exact ⟨_, _, _, he, rfl⟩
  | _ => exact other (by decide)

/-- Settles O33: a command takes its word on the paths that `TakesEntropy` names, and ends without it on every other. -/
theorem entropyTakenExactlyWhenUsed : Obligations.EntropyTakenExactlyWhenUsed := by
  intro i s t d h hd
  refine ⟨fun takes => ?_, fun takes => ?_⟩
  · obtain ⟨m, d', r, he, ent⟩ := exec_takes_entropy takes
    cases he.symm.trans h
    cases hd
    exact ent
  · obtain ⟨m, d', r, he, ent⟩ := exec_takes_no_entropy takes
    cases he.symm.trans h
    cases hd
    exact ent

-- An exhausted register (R156, R256).

/-- The register is `m`, the results so far are `vs`, and what is left to do is requests with no candidate later than `m`. -/
structure HeldAt (m : Msr) (vs : List Nat) (s : State) : Prop where
  msr : s.msr = m
  values : monoValues s.trace = vs
  ahead : ∀ move ∈ s.agenda, ∃ o, move = .present o ∧ ∀ c, o.candidate? = some c → c ≤ m.ts.toNat

/-- A request without a candidate asks for no transition, and one with a candidate that is not later asks an exhausted
register for one that fails. -/
theorem Exchange.Records.of_exhausted {x : Exchange} {o : Offer} {m m' : Msr} (h : x.Records m m' (o.transition? m))
    (full : m.rnd.toNat = 2 ^ 80 - 1) (notLater : ∀ c, o.candidate? = some c → c ≤ m.ts.toNat) :
    x.monoValue? = none ∧ m' = m := by
  cases hc : o.candidate? with
  | none => rwa [Offer.transition?, hc] at h
  | some c => rwa [Offer.transition?_of_candidate hc, monoStep_exhausted o.ent (notLater c hc) full] at h

theorem HeldAt.step {m : Msr} {vs : List Nat} {s t : State} (full : m.rnd.toNat = 2 ^ 80 - 1) (hs : HeldAt m vs s)
    (h : step s = .next t) : HeldAt m vs t := by
  obtain ⟨rfl, rfl, ahead⟩ := hs
  cases ha : s.agenda with
  | nil =>
    rw [Machine.step, ha] at h
    cases h
    exact ⟨rfl, rfl, ahead⟩
  | cons move rest =>
    rw [ha] at ahead
    obtain ⟨⟨o, rfl, notLater⟩, aheadOfRest⟩ := List.forall_mem_cons.mp ahead
    obtain ⟨m', d, r, he, records⟩ := step_records ha
    obtain ⟨noResult, rfl⟩ := records.of_exhausted full notLater
    cases he.symm.trans h
    exact ⟨rfl, List.filterMap_cons_none noResult, aheadOfRest⟩

/-- Settles O34: every step holds the register, so every run does. -/
theorem exhaustionPersists : Obligations.ExhaustionPersists := by
  intro os s t k ha full notLater h
  have start : HeldAt s.msr (monoValues s.trace) s := by
    refine ⟨rfl, rfl, fun move hm => ?_⟩
    rw [ha] at hm
    obtain ⟨o, ho, rfl⟩ := List.mem_map.mp hm
    exact ⟨o, rfl, notLater o ho⟩
  obtain ⟨msr, values, -⟩ := run_keeps (fun _ _ hs => hs.step full) start h
  exact ⟨msr, values⟩

end Sys2Proof.Machine
end

section
/-! PROOFS. Family 44_engine.md. First the string of a register value: that it is well-formed, what XTS and XRND read in
it, and that it determines the value. Then each command of unit EN on each of its paths; then the eleven statements. -/

namespace Sys2Proof.Machine

-- Well-formed strings and their values (R140, R177, R178).

theorem b32dec_lt_of_wellFormedText {s : List Byte} (h : wellFormedText s = true) : b32dec s < 2 ^ 130 := by
  obtain ⟨len, -⟩ := (wellFormedText_iff s).mp h
  calc b32dec s < 32 ^ s.length := b32dec_lt s
    _ = 2 ^ 130 := by rw [len]; rfl

/-- The value of a string is made of the sums over its first ten and its last sixteen digits (R174, R175). -/
theorem unpack_b32dec_of_wellFormedText {s : List Byte} (h : wellFormedText s = true) :
    unpackTs (b32dec s) = digitSum s 0 10 ∧ unpackRnd (b32dec s) = digitSum s 10 16 := by
  obtain ⟨len, -⟩ := (wellFormedText_iff s).mp h
  obtain ⟨split, -, low⟩ := b32dec_split len
  rw [split, ← pack_eq low]
  exact ⟨unpackTs_pack _ low, unpackRnd_pack _ low⟩

/-- The timestamp of a well-formed string fits the 64-bit `TS` field (R174). -/
theorem toNat_ofNat_unpackTs {v : Nat} (h : v < 2 ^ 130) : (BitVec.ofNat 64 (unpackTs v)).toNat = unpackTs v := by
  rw [BitVec.toNat_ofNat, Nat.mod_eq_of_lt ((unpackTs_lt h).trans (by decide))]

/-- The random half of a value fits the 128-bit `RND` field (R175). -/
theorem toNat_ofNat_unpackRnd (v : Nat) : (BitVec.ofNat 128 (unpackRnd v)).toNat = unpackRnd v := by
  rw [BitVec.toNat_ofNat, Nat.mod_eq_of_lt ((unpackRnd_lt v).trans (by decide))]

theorem inAlpha_of_mem_alphabet : ∀ c ∈ alphabet, inAlpha c = true := by decide

theorem Canonical.wellFormed {w : Text} (h : Canonical w) : wellFormedText w.chars = true :=
  (wellFormedText_iff _).mpr ⟨h.1, fun c hc => inAlpha_of_mem_alphabet c (h.2 c hc)⟩

theorem b32dec_b32enc_packed (m : Msr) : b32dec (b32enc m.packed).chars = m.packed :=
  b32dec_b32enc (m.packed_lt.trans (by decide))

theorem Msr.packed_injective : Function.Injective Msr.packed := fun m n h => by
  have ts : m.ts.toNat = n.ts.toNat := by rw [← m.unpackTs_packed, h, n.unpackTs_packed]
  have rnd : m.rnd.toNat = n.rnd.toNat := by rw [← m.unpackRnd_packed, h, n.unpackRnd_packed]
  cases m
  cases n
  rw [Msr.mk.injEq]
  exact ⟨BitVec.eq_of_toNat_eq ts, BitVec.eq_of_toNat_eq rnd⟩

/-- The string of a register value determines it. -/
theorem b32enc_packed_inj {m n : Msr} : b32enc m.packed = b32enc n.packed ↔ m = n := by
  refine ⟨fun h => Msr.packed_injective ?_, fun h => by rw [h]⟩
  rw [← b32dec_b32enc_packed m, h, b32dec_b32enc_packed n]

-- GEN and GENTS, path by path (R170, R172).

section
variable {s : State}

/-- A timestamp operand within the range is the number that its low 48 bits hold. -/
theorem State.reqTs_eq_of_inRange (low : 0 ≤ s.reqTs) (high : s.reqTs ≤ 2 ^ 48 - 1) :
    s.reqTs = (s.cur.req.ts.extractLsb' 0 48).toNat := by
  have number := State.toNat_reqTs low
  rw [toNat_extractLsb'_zero_of_lt (by omega), ← number, Int.toNat_of_nonneg low]

theorem exec_gen :
    exec .gen s = .next (s.finish s.msr (Draws.both s.cur)
      (Response.text (b32enc (Msr.packed { ts := s.cur.now, rnd := s.cur.ent })))) :=
  rfl

theorem exec_gents_of_outOfRange (h : s.reqTs < 0 ∨ 2 ^ 48 - 1 < s.reqTs) :
    exec .gents s = .next (s.finish s.msr Draws.nothing (Response.code .invalidTimestamp)) :=
  if_pos ((tsOutOfRange_iff s.reqTs).mpr h)

theorem exec_gents_of_reqTs_eq {ts : Millis} (h : s.reqTs = ts.toNat) :
    exec .gents s = .next (s.finish s.msr (Draws.entropy s.cur)
      (Response.text (b32enc (Msr.packed { ts := ts, rnd := s.cur.ent })))) := by
  have lt := ts.isLt
  have inRange : tsOutOfRange s.reqTs = false := (tsOutOfRange_eq_false _).mpr (by omega)
  have number : s.reqTs.toNat = ts.toNat := by rw [h, Int.toNat_natCast]
  rw [Msr.packed, ← number]
  exact if_neg (ne_true_of_eq_false inRange)

/-- GEN at a clock value and GENTS of the same value answer alike. -/
theorem exec_of_stampedAt {i : Instr} {ts : Millis} (h : StampedAt i s ts) :
    ∃ d, exec i s = .next (s.finish s.msr d
      (Response.text (b32enc (Msr.packed { ts := ts, rnd := s.cur.ent })))) := by
  rcases h with ⟨rfl, rfl⟩ | ⟨rfl, h⟩
  · exact ⟨_, exec_gen⟩
  · exact ⟨_, exec_gents_of_reqTs_eq h⟩

-- XTS, XRND, NORM and TOUUID on a string that is well-formed or not (R174, R175, R176, R202).

theorem exec_of_malformed {i : Instr} (hi : i = .xts ∨ i = .xrnd ∨ i = .norm) (h : wellFormedText s.reqStr = false) :
    exec i s = .next (s.finish s.msr Draws.nothing (Response.code .invalidFormat)) := by
  rcases hi with rfl | rfl | rfl <;> exact if_neg (ne_true_of_eq_false h)

theorem exec_xts_of_wellFormed (h : wellFormedText s.reqStr = true) :
    exec .xts s = .next (s.finish s.msr Draws.nothing
      (Response.time (BitVec.ofNat 64 (unpackTs (b32dec s.reqStr))))) :=
  if_pos h

theorem exec_xrnd_of_wellFormed (h : wellFormedText s.reqStr = true) :
    exec .xrnd s = .next (s.finish s.msr Draws.nothing
      (Response.random (BitVec.ofNat 128 (unpackRnd (b32dec s.reqStr))))) :=
  if_pos h

theorem exec_norm_of_wellFormed (h : wellFormedText s.reqStr = true) :
    exec .norm s = .next (s.finish s.msr Draws.nothing (Response.text (b32enc (b32dec s.reqStr)))) :=
  if_pos h

theorem exec_chk_of_wellFormed (h : wellFormedText s.reqStr = true) :
    exec .chk s = .next (s.finish s.msr Draws.nothing (Response.bool true)) := by
  rw [exec_chk, ← wellFormedText_eq_decide, h]

theorem exec_touuid_of_overflow (h : wellFormedText s.reqStr = true) (big : 2 ^ 128 ≤ b32dec s.reqStr) :
    exec .touuid s = .next (s.finish s.msr Draws.nothing (Response.code .valueOverflow)) :=
  (if_pos h).trans (if_pos big)

/-- NORM writes the operand in upper case (R176). -/
theorem exists_exec_norm_eq_map_fold (h : wellFormedText s.reqStr = true) :
    ∃ t : Text, t.chars = s.reqStr.map fold
      ∧ exec .norm s = .next (s.finish s.msr Draws.nothing (Response.text t)) := by
  obtain ⟨len, valid⟩ := (wellFormedText_iff _).mp h
  exact ⟨_, b32enc_b32dec len valid, exec_norm_of_wellFormed h⟩

/-- XTS and XRND of the string of a register value give its two fields (R179). -/
theorem exec_extract_of_packed {m : Msr} (h : s.cur.req.str = b32enc m.packed) :
    exec .xts s = .next (s.finish s.msr Draws.nothing (Response.time (m.ts.setWidth 64)))
      ∧ exec .xrnd s = .next (s.finish s.msr Draws.nothing (Response.random (m.rnd.setWidth 128))) := by
  have ok : wellFormedText s.reqStr = true := by
    rw [State.reqStr, h]
    exact (b32enc_canonical _).wellFormed
  have value : b32dec s.reqStr = m.packed := by rw [State.reqStr, h, b32dec_b32enc_packed]
  rw [exec_xts_of_wellFormed ok, exec_xrnd_of_wellFormed ok, value, m.unpackTs_packed, m.unpackRnd_packed,
    BitVec.ofNat_toNat, BitVec.ofNat_toNat]
  exact ⟨rfl, rfl⟩

end

-- The strings that commands write (R177, R179).

/-- Each of the six commands writes its string with the encoder; only ENC and NORM may encode a number from 2^128 up. -/
theorem SuccessAnswer.str_eq_b32enc {i : Instr} {r : Response} {w : Text} (h : SuccessAnswer r i)
    (hi : i ∈ [Instr.enc, .gen, .genm, .gents, .norm, .fromuuid]) (hw : r.str = some w) :
    ∃ n, w = b32enc n ∧ (i ≠ .enc → i ≠ .norm → n < 2 ^ 128) := by
  cases i with
  | enc =>
    obtain ⟨n, rfl⟩ := h
    exact ⟨n, (Option.some.inj hw).symm, fun other => absurd rfl other⟩
  | norm =>
    obtain ⟨n, rfl⟩ := h
    exact ⟨n, (Option.some.inj hw).symm, fun _ other => absurd rfl other⟩
  | gen | genm | gents | fromuuid =>
    obtain ⟨n, small, rfl⟩ := h
    exact ⟨n, (Option.some.inj hw).symm, fun _ _ => small⟩
  | _ => exact absurd hi (by decide)

theorem digit_first_b32enc_lt {n : Nat} (h : n < 2 ^ 128) : digit ((b32enc n).chars.getD 0 0) < 8 := by
  have := (first_digit (b32enc_length n)).not.mpr (Nat.not_le.mpr (b32dec_b32enc_lt h))
  omega

/-- A string that GENTS, GEN or GENM returns encodes a register value: the one that GENM leaves in `MSR`, and for the
other two the timestamp of the command with its entropy word. -/
theorem exec_generates_packed {i : Instr} {s t : State} {r : Response} {w : Text}
    (hi : i = .gents ∨ i = .gen ∨ i = .genm) (h : exec i s = .next t) (hr : t.lastRsp = some r) (hw : r.str = some w) :
    ∃ m : Msr, w = b32enc m.packed ∧ (i = .gents → (m.ts.toNat : Int) = s.reqTs ∧ m.rnd = s.cur.ent)
      ∧ (i = .gen → m.ts = s.cur.now ∧ m.rnd = s.cur.ent) ∧ (i = .genm → m = t.msr) := by
  rcases hi with rfl | rfl | rfl
  · by_cases out : s.reqTs < 0 ∨ 2 ^ 48 - 1 < s.reqTs
    · cases (exec_gents_of_outOfRange out).symm.trans h
      cases hr
      cases hw
    · have stamp := s.reqTs_eq_of_inRange (by omega) (by omega)
      cases (exec_gents_of_reqTs_eq stamp).symm.trans h
      cases hr
      cases hw
      exact ⟨_, rfl, fun _ => ⟨stamp.symm, rfl⟩, nofun, nofun⟩
  · cases exec_gen.symm.trans h
    cases hr
    cases hw
    exact ⟨_, rfl, nofun, fun _ => ⟨rfl, rfl⟩, nofun⟩
  · cases outcome : monoStep Config.monoOvf s.msr s.nowValue s.cur.ent with
    | failed k =>
      cases (exec_genm_failed outcome).symm.trans h
      cases hr
      cases hw
    | moved m used =>
      cases (exec_genm_moved outcome).symm.trans h
      cases hr
      cases hw
      exact ⟨m, rfl, nofun, nofun, fun _ => rfl⟩

-- The statements.

/-- Settles O35: the string encodes the clock and the entropy word side by side. -/
theorem genRendersClockAndEntropy : Obligations.GenRendersClockAndEntropy :=
  ⟨by decide, fun s => ⟨_, packed_shows ⟨s.cur.now, s.cur.ent⟩, exec_gen⟩⟩

/-- Settles O36: the clock is always in range, so GENM has three of the four cases of a transition. -/
theorem genmAppliesTransition : Obligations.GenmAppliesTransition :=
  ⟨by decide, fun _ => ⟨exec_genm_newPeriod, exec_genm_exhausted, exec_genm_increment⟩⟩

/-- Settles O37: on one candidate both commands follow the same outcome of `monoStep`, and decoding undoes encoding. -/
theorem monoAndGenmShareOneTransition : Obligations.MonoAndGenmShareOneTransition := by
  intro s candidate
  cases outcome : monoStep Config.monoOvf s.msr s.nowValue s.cur.ent with
  | failed k =>
    exact ⟨_, _, _, _, exec_mono_failed (candidate ▸ outcome), exec_genm_failed outcome, rfl, rfl, rfl, rfl, rfl⟩
  | moved m used =>
    refine ⟨_, _, _, _, exec_mono_moved (candidate ▸ outcome), exec_genm_moved outcome, rfl, rfl, rfl, rfl, ?_⟩
    rw [Response.value_val, Response.text_str, Option.map_some, Option.map_some, b32dec_b32enc_packed,
      BitVec.toNat_append]
    rfl

/-- Settles O38: a timestamp in range is its own low 48 bits. -/
theorem gentsRendersGivenTimestamp : Obligations.GentsRendersGivenTimestamp :=
  ⟨by decide, fun s => ⟨exec_gents_of_outOfRange, fun low high =>
    ⟨_, packed_shows ⟨_, s.cur.ent⟩, exec_gents_of_reqTs_eq (s.reqTs_eq_of_inRange low high)⟩⟩⟩

/-- Settles O40: the value shifted by 80 is the sum over the first ten digits, and it fits its field. -/
theorem xtsReadsTimestamp : Obligations.XtsReadsTimestamp := by
  refine ⟨by decide, fun s => ⟨exec_of_malformed (by decide), fun ok => ⟨_, ?_, exec_xts_of_wellFormed ok⟩⟩⟩
  rw [toNat_ofNat_unpackTs (b32dec_lt_of_wellFormedText ok), (unpack_b32dec_of_wellFormedText ok).1]

/-- Settles O41: the value's low 80 bits are the sum over the last sixteen digits, and they fit their field. -/
theorem xrndReadsRandom : Obligations.XrndReadsRandom := by
  refine ⟨by decide, fun s => ⟨exec_of_malformed (by decide), fun ok => ⟨_, ?_, exec_xrnd_of_wellFormed ok⟩⟩⟩
  rw [toNat_ofNat_unpackRnd, (unpack_b32dec_of_wellFormedText ok).2]

/-- Settles O42: encoding what the decoder read gives each character in upper case. -/
theorem normFoldsToUpperCase : Obligations.NormFoldsToUpperCase :=
  ⟨by decide, fun _ => ⟨exec_of_malformed (by decide), exists_exec_norm_eq_map_fold⟩⟩

/-- Settles O43: a first digit of 8 or more puts the value at 2^128 or above, and 26 digits keep it below 2^130. -/
theorem stringsAboveRange : Obligations.StringsAboveRange := by
  intro s ok first
  obtain ⟨len, -⟩ := (wellFormedText_iff _).mp ok
  have low := (first_digit len).mp first
  have high := b32dec_lt_of_wellFormedText ok
  have ts : 2 ^ 48 ≤ unpackTs (b32dec s.reqStr) ∧ unpackTs (b32dec s.reqStr) ≤ 2 ^ 50 - 1 := by
    rw [unpackTs_eq]
    omega
  rw [← toNat_ofNat_unpackTs high] at ts
  exact ⟨low, Nat.le_pred_of_lt high, exec_chk_of_wellFormed ok,
    (exec_isvalid_eq_exec_chk s).trans (exec_chk_of_wellFormed ok),
    ⟨_, ts.1, ts.2, toNat_ofNat_unpackTs high, exec_xts_of_wellFormed ok⟩,
    ⟨_, (toNat_ofNat_unpackRnd _).trans (unpackRnd_eq _), exec_xrnd_of_wellFormed ok⟩,
    exists_exec_norm_eq_map_fold ok, exec_touuid_of_overflow ok low⟩

/-- Settles O44: all these strings come from the encoder, and below 2^128 it starts with a digit below 8. -/
theorem generatedStringsAreCanonical : Obligations.GeneratedStringsAreCanonical := by
  intro i s t r w hi h hr hw
  obtain ⟨m, d, r', he, -, answer⟩ := exec_endsLawfully i s
  cases he.symm.trans h
  cases hr
  rcases answer with ⟨k, -, rfl, -⟩ | success
  · cases hw
  · obtain ⟨n, rfl, small⟩ := success.str_eq_b32enc hi hw
    have canonical := b32enc_canonical n
    exact ⟨canonical, canonical.wellFormed, fun enc norm => digit_first_b32enc_lt (small enc norm)⟩

/-- Settles O45: both strings encode the timestamp with an entropy word, and a string determines its two fields. -/
theorem stringsDifferExactlyWithEntropy : Obligations.StringsDifferExactlyWithEntropy := by
  intro i j s t ts hs ht
  obtain ⟨d, hs⟩ := exec_of_stampedAt hs
  obtain ⟨d', ht⟩ := exec_of_stampedAt ht
  refine ⟨_, _, _, _, hs, ht, rfl, rfl, ?_⟩
  rw [b32enc_packed_inj, Msr.mk.injEq]
  exact and_iff_right rfl

/-- Settles O46: a generated string encodes a register value, whose fields XTS and XRND give back. -/
theorem extractionUndoesGeneration : Obligations.ExtractionUndoesGeneration := by
  intro i s t u r w hi h hr hw hu
  obtain ⟨m, rfl, gents, gen, genm⟩ := exec_generates_packed hi h hr hw
  obtain ⟨xts, xrnd⟩ := exec_extract_of_packed hu
  exact ⟨m.ts, m.rnd, gents, gen, fun hi => ⟨congrArg Msr.ts (genm hi), congrArg Msr.rnd (genm hi)⟩, xts, xrnd⟩

end Sys2Proof.Machine
end

section
/-! PROOFS. Family 45_uuid_bridge.md. The value of hex text digit by digit; the characters of UUID text; what a string
parses to, said once through its hex digits; then the two commands of unit UU on each of their paths, and the four
statements. -/

namespace Sys2Proof.Machine

-- The positional value of hex digits (R200, R201).

/-- The value as a sum over the digits (R201). -/
theorem hexNumber_eq_sum (d : List Byte) :
    hexNumber d = ∑ k ∈ Finset.range d.length, hexVal (d.getD k 0) * 16 ^ (d.length - 1 - k) := by
  induction d with
  | nil => rfl
  | cons c d ih =>
    rw [hexNumber_cons, ih, List.length_cons, Finset.sum_range_succ', add_comm]
    congr 1
    refine Finset.sum_congr rfl fun k _ => ?_
    rw [List.getD_cons_succ, show d.length + 1 - 1 - (k + 1) = d.length - 1 - k by omega]

/-- The digit in front of a tail of `n` digits counts 16 ^ `n`. -/
theorem hexNumber_div_mod (front : List Byte) {c : Byte} {tail : List Byte} (hex : ∀ x ∈ c :: tail, isHex x = true) :
    hexNumber (front ++ c :: tail) / 16 ^ tail.length % 16 = hexVal c := by
  obtain ⟨hc, htail⟩ := List.forall_mem_cons.mp hex
  have split : hexNumber (front ++ c :: tail)
      = 16 ^ tail.length * (16 * hexNumber front + hexVal c) + hexNumber tail := by
    rw [hexNumber_append, hexNumber_cons, List.length_cons, pow_succ]
    ring
  rw [split, Nat.mul_add_div (by positivity), Nat.div_eq_of_lt (hexNumber_lt tail htail), Nat.add_zero, Nat.mul_add_mod,
    Nat.mod_eq_of_lt (hexVal_lt c hc)]

theorem hexNumber_map_lowerCase {d : List Byte} (hex : ∀ c ∈ d, isHex c = true) :
    hexNumber (d.map lowerCase) = hexNumber d := by
  induction d with
  | nil => rfl
  | cons c d ih =>
    obtain ⟨hc, hd⟩ := List.forall_mem_cons.mp hex
    rw [List.map_cons, hexNumber_cons, hexNumber_cons, ih hd, List.length_map, hexVal_lowerCase c hc]

-- The hex digits that TOUUID writes (R81, R200).

theorem hexVal_hexChar : ∀ d < 16, hexVal (hexChar .lower d) = d := by decide

theorem isHex_hexChar : ∀ d < 16, isHex (hexChar .lower d) = true := by decide

/-- Writing the digit of a hex byte gives the byte in lower case. -/
theorem hexChar_hexVal : ∀ c : Byte, isHex c = true → hexChar .lower (hexVal c) = lowerCase c := by decide

theorem ne_hyphen_of_isHex : ∀ c : Byte, isHex c = true → c ≠ hyphen := by decide

/-- The digit of `v` that hex digit `k` of 32 carries (R80). -/
def hexDigit (v k : Nat) : Nat := v / 16 ^ (31 - k) % 16

theorem hexDigit_lt (v k : Nat) : hexDigit v k < 16 := Nat.mod_lt _ (by decide)

theorem hexDigits_eq (uc : UuidCase) (v start n : Nat) :
    hexDigits uc v start n = (List.range' start n).map fun k => hexChar uc (hexDigit v k) := by
  refine List.map_congr_left fun k _ => congrArg (hexChar uc) ?_
  rw [hexDigit, Nat.shiftRight_eq_div_pow, pow_mul]
  exact Nat.and_two_pow_sub_one_eq_mod _ 4

theorem isHex_of_mem_hexDigits {v start n : Nat} : ∀ c ∈ hexDigits .lower v start n, isHex c = true := by
  intro c hc
  rw [hexDigits_eq, List.mem_map] at hc
  obtain ⟨k, -, rfl⟩ := hc
  exact isHex_hexChar _ (hexDigit_lt v k)

/-- The leading hex digits of a value are the value without its low digits. -/
theorem hexNumber_leading_digits {v : Nat} (hv : v < 2 ^ 128) {n : Nat} (hn : n ≤ 32) :
    hexNumber (hexDigits .lower v 0 n) = v / 16 ^ (32 - n) := by
  rw [hexDigits_eq]
  induction n with
  | zero => exact (Nat.div_eq_of_lt hv).symm
  | succ n ih =>
    have last : hexNumber [hexChar .lower (hexDigit v (0 + n))] = hexDigit v n := by
      simpa [hexNumber] using hexVal_hexChar _ (hexDigit_lt v n)
    rw [List.range'_1_concat, List.map_append, hexNumber_append, ih (by omega), List.map_singleton, last, hexDigit,
      show 32 - n = 31 - n + 1 by omega, pow_succ, ← Nat.div_div_eq_div_mul, Nat.succ_sub_succ]
    exact Nat.div_add_mod' _ 16

/-- Reading what was written gives the value back. -/
theorem hexNumber_hexDigits {v : Nat} (hv : v < 2 ^ 128) : hexNumber (hexDigits .lower v 0 32) = v :=
  (hexNumber_leading_digits hv le_rfl).trans (Nat.div_one v)

/-- Writing what was read gives the digits back, in lower case. -/
theorem hexDigits_hexNumber {d : List Byte} (len : d.length = 32) (hex : ∀ c ∈ d, isHex c = true) :
    hexDigits .lower (hexNumber d) 0 32 = d.map lowerCase := by
  rw [hexDigits_eq]
  refine List.ext_getElem (by simp [len]) fun k _ hk => ?_
  have hk : k < d.length := by simpa using hk
  have own : hexDigit (hexNumber d) k = hexVal d[k] := by
    have tail : (d.drop (k + 1)).length = 31 - k := by rw [List.length_drop]; omega
    conv_lhs => rw [hexDigit, ← List.take_append_drop k d, List.drop_eq_getElem_cons hk, ← tail]
    exact hexNumber_div_mod _ fun c hc => hex c (List.mem_of_mem_drop (List.drop_eq_getElem_cons hk ▸ hc))
  rw [List.getElem_map, List.getElem_map, List.getElem_range', Nat.one_mul, Nat.zero_add, own]
  exact hexChar_hexVal _ (hex _ (List.getElem_mem hk))

-- The 36-character form: its digits and its hyphens (R80, R201).

theorem uuidIndex_lt : ∀ k < 32, uuidIndex k < 36 := by decide

theorem uuidIndex_ne_hyphen :
    ∀ k < 32, ¬ (uuidIndex k = 8 ∨ uuidIndex k = 13 ∨ uuidIndex k = 18 ∨ uuidIndex k = 23) := by decide

/-- Every index of the form is that of a hyphen or of a hex digit. -/
theorem hyphenAt_or_uuidIndex : ∀ i < 36, (i = 8 ∨ i = 13 ∨ i = 18 ∨ i = 23) ∨ ∃ k < 32, uuidIndex k = i := by decide

theorem groupedDigits_eq (s : List Byte) : groupedDigits s = (List.range 32).map fun k => s.getD (uuidIndex k) 0 := by
  have indices : (List.range 36).filter (fun i => !hyphenAt.contains i) = (List.range 32).map uuidIndex := by decide
  rw [groupedDigits, indices, List.map_map]
  rfl

theorem groupedDigits_getElem? {s : List Byte} (len : s.length = 36) {k : Nat} (hk : k < 32) :
    (groupedDigits s)[k]? = s[uuidIndex k]? := by
  have hi : uuidIndex k < s.length := len ▸ uuidIndex_lt k hk
  simp [groupedDigits_eq, hk, hi]

/-- A string has the 36-character form (R201). -/
structure Grouped (s : List Byte) : Prop where
  length : s.length = 36
  hyphens : ∀ i, i = 8 ∨ i = 13 ∨ i = 18 ∨ i = 23 → s[i]? = some hyphen
  digits : ∀ c ∈ groupedDigits s, isHex c = true

theorem Grouped.isHex_at {s : List Byte} (h : Grouped s) {k : Nat} (hk : k < 32) :
    ∃ c, s[uuidIndex k]? = some c ∧ isHex c = true := by
  have hk' : k < (groupedDigits s).length := by simpa using hk
  rw [← groupedDigits_getElem? h.length hk]
  exact ⟨_, List.getElem?_eq_getElem hk', h.digits _ (List.getElem_mem hk')⟩

/-- The form is determined by its digits. -/
theorem Grouped.ext {s t : List Byte} (hs : Grouped s) (ht : Grouped t) (digits : groupedDigits s = groupedDigits t) :
    s = t := by
  refine List.ext_getElem? fun i => ?_
  by_cases hi : i < 36
  · rcases hyphenAt_or_uuidIndex i hi with h | ⟨k, hk, rfl⟩
    · rw [hs.hyphens i h, ht.hyphens i h]
    · rw [← groupedDigits_getElem? hs.length hk, ← groupedDigits_getElem? ht.length hk, digits]
  · rw [List.getElem?_eq_none (by have := hs.length; omega), List.getElem?_eq_none (by have := ht.length; omega)]

theorem groupedDigits_map_lowerCase (s : List Byte) :
    groupedDigits (s.map lowerCase) = (groupedDigits s).map lowerCase := by
  rw [groupedDigits_eq, groupedDigits_eq, List.map_map]
  exact List.map_congr_left fun k _ => List.getD_map s 0 lowerCase

/-- The 32 characters of UUID text that are not hyphens, in order. -/
theorem groupedDigits_uuidText (uc : UuidCase) (v : Nat) :
    groupedDigits (uuidText uc v).chars = hexDigits uc v 0 32 := by
  simp [groupedDigits_eq, uuidText, hexDigits_eq, List.range_succ, List.range'_succ, uuidIndex]

theorem uuidText_hyphens (uc : UuidCase) (v : Nat) :
    ∀ i, i = 8 ∨ i = 13 ∨ i = 18 ∨ i = 23 → (uuidText uc v).chars[i]? = some hyphen := by
  rintro i (rfl | rfl | rfl | rfl) <;> rfl

theorem grouped_uuidText (v : Nat) : Grouped (uuidText .lower v).chars where
  length := uuidText_length _ v
  hyphens := uuidText_hyphens _ v
  digits := by
    rw [groupedDigits_uuidText]
    exact isHex_of_mem_hexDigits

theorem uuidText_shows {n : Nat} {v : Value} (h : v.toNat = n) : ShowsUuid (uuidText .lower n) v := by
  have hyphens := uuidText_hyphens .lower n
  refine ⟨uuidText_length _ n, fun k hk => ?_, hyphens 8 (by decide), hyphens 13 (by decide), hyphens 18 (by decide),
    hyphens 23 (by decide)⟩
  have bits : hexDigit n k = (v.extractLsb' (4 * (31 - k)) 4).toNat := by
    rw [BitVec.extractLsb'_toNat, h, Nat.shiftRight_eq_div_pow, pow_mul]
    rfl
  rw [← groupedDigits_getElem? (uuidText_length _ n) hk, groupedDigits_uuidText, hexDigits_eq, ← bits]
  simp [hk]

-- What a string parses to (R201).

/-- The two shapes, by the digits of each. -/
theorem uuidShaped_iff {s : List Byte} : UuidShaped s ↔ Grouped s ∨ (s.length = 32 ∧ ∀ c ∈ s, isHex c = true) := by
  refine or_congr_left ⟨fun ⟨len, chars⟩ => ⟨len, fun i hi => ?_, fun c hc => ?_⟩, fun h => ⟨h.length, fun i hi => ?_⟩⟩
  · simpa [hi] using chars i (by omega)
  · obtain ⟨k, hk, hkc⟩ := List.getElem_of_mem hc
    have hk32 : k < 32 := by simpa using hk
    obtain ⟨x, hx, hex⟩ := (if_neg (uuidIndex_ne_hyphen k hk32)).mp (chars _ (uuidIndex_lt k hk32))
    rw [← groupedDigits_getElem? len hk32, List.getElem?_eq_getElem hk, hkc] at hx
    exact Option.some.inj hx ▸ hex
  · rcases hyphenAt_or_uuidIndex i hi with hh | ⟨k, hk, rfl⟩
    · rw [if_pos hh]
      exact h.hyphens i hh
    · rw [if_neg (uuidIndex_ne_hyphen k hk)]
      exact h.isHex_at hk

theorem grouped_of_shaped {s : List Byte} (len : s.length = 36) (h : UuidShaped s) : Grouped s :=
  (uuidShaped_iff.mp h).resolve_right fun plain => by omega

theorem uuidParse_eq_none {s : List Byte} (h : ¬ UuidShaped s) : uuidParse s = none := by
  rwa [← uuidParse_isSome_iff, Option.not_isSome_iff_eq_none] at h

theorem uuidParse_of_grouped {s : List Byte} (h : Grouped s) : uuidParse s = some (hexNumber (groupedDigits s)) := by
  obtain ⟨v, hv⟩ := Option.isSome_iff_exists.mp ((uuidParse_isSome_iff s).mpr (uuidShaped_iff.mpr (.inl h)))
  obtain ⟨d, -, -, rfl, ⟨-, rfl, -⟩ | ⟨len, -⟩⟩ := uuidParse_cases hv
  · exact hv
  · have := h.length
    omega

theorem uuidParse_of_plain {s : List Byte} (len : s.length = 32) (hex : ∀ c ∈ s, isHex c = true) :
    uuidParse s = some (hexNumber s) := by
  rw [uuidParse, if_neg (by rw [len]; decide), if_pos len, if_pos (List.all_eq_true.mpr hex)]

theorem filter_hyphen_of_isHex {s : List Byte} (hex : ∀ c ∈ s, isHex c = true) : s.filter (· ≠ hyphen) = s := by
  rw [List.filter_eq_self]
  exact fun c hc => decide_eq_true (ne_hyphen_of_isHex c (hex c hc))

/-- In the 36-character form only the four separators are hyphens. -/
theorem Grouped.filter_hyphen {s : List Byte} (h : Grouped s) : s.filter (· ≠ hyphen) = groupedDigits s := by
  have chars : (List.range 36).map (fun i => s.getD i 0) = s :=
    List.ext_getElem (by simp [h.length]) fun i _ hi => by simp [hi]
  have kept : ∀ i ∈ List.range 36, decide (s.getD i 0 ≠ hyphen) = !hyphenAt.contains i := by
    intro i hi
    rcases hyphenAt_or_uuidIndex i (List.mem_range.mp hi) with hh | ⟨k, hk, rfl⟩
    · rw [List.getD_eq_getElem?_getD, h.hyphens i hh]
      rcases hh with rfl | rfl | rfl | rfl <;> rfl
    · obtain ⟨c, hc, hex⟩ := h.isHex_at hk
      rw [List.getD_eq_getElem?_getD, hc]
      simpa [hyphenAt, uuidIndex_ne_hyphen k hk] using ne_hyphen_of_isHex c hex
  conv_lhs => rw [← chars, List.filter_map]
  rw [groupedDigits, ← List.filter_congr kept]
  rfl

/-- A string of either shape parses to the number of its characters other than hyphens, which are 32 hex digits. -/
theorem uuidParse_of_shaped {s : List Byte} (h : UuidShaped s) :
    uuidParse s = some (hexNumber (s.filter (· ≠ hyphen)))
      ∧ (s.filter (· ≠ hyphen)).length = 32 ∧ ∀ c ∈ s.filter (· ≠ hyphen), isHex c = true := by
  rcases uuidShaped_iff.mp h with grouped | ⟨len, hex⟩
  · rw [grouped.filter_hyphen]
    exact ⟨uuidParse_of_grouped grouped, groupedDigits_length s, grouped.digits⟩
  · rw [filter_hyphen_of_isHex hex]
    exact ⟨uuidParse_of_plain len hex, len, hex⟩

theorem uuidShaped_map_lowerCase {s : List Byte} : UuidShaped (s.map lowerCase) ↔ UuidShaped s := by
  simp [UuidShaped, isHex_lowerCase, lowerCase_eq_hyphen]

/-- Parsing does not see letter case (R201). -/
theorem uuidParse_map_lowerCase (s : List Byte) : uuidParse (s.map lowerCase) = uuidParse s := by
  by_cases h : UuidShaped s
  · obtain ⟨parse, -, hex⟩ := uuidParse_of_shaped h
    obtain ⟨parse', -⟩ := uuidParse_of_shaped (uuidShaped_map_lowerCase.mpr h)
    have digits : (s.map lowerCase).filter (· ≠ hyphen) = (s.filter (· ≠ hyphen)).map lowerCase := by
      rw [List.filter_map]
      simp [Function.comp_def, lowerCase_eq_hyphen]
    rw [parse, parse', digits, hexNumber_map_lowerCase hex]
  · rw [uuidParse_eq_none h, uuidParse_eq_none (uuidShaped_map_lowerCase.not.mpr h)]

theorem uuidParse_uuidText {v : Nat} (hv : v < 2 ^ 128) : uuidParse (uuidText .lower v).chars = some v := by
  rw [uuidParse_of_grouped (grouped_uuidText v), groupedDigits_uuidText, hexNumber_hexDigits hv]

/-- TOUUID of the value of a 36-character string writes the string in lower case (R204). -/
theorem uuidText_of_parse {s : List Byte} {v : Nat} (len : s.length = 36) (h : uuidParse s = some v) :
    (uuidText .lower v).chars = s.map lowerCase := by
  have shaped : UuidShaped s := (uuidParse_isSome_iff s).mp (Option.isSome_of_eq_some h)
  have grouped := grouped_of_shaped len shaped
  have lower := grouped_of_shaped (by rwa [List.length_map]) (uuidShaped_map_lowerCase.mpr shaped)
  cases (uuidParse_of_grouped grouped).symm.trans h
  refine (grouped_uuidText _).ext lower ?_
  rw [groupedDigits_uuidText, groupedDigits_map_lowerCase,
    hexDigits_hexNumber (groupedDigits_length s) grouped.digits]

/-- Exactly the lower-case texts of 36 characters come back as they were (R204). -/
theorem uuidText_eq_iff_of_parse {s : List Byte} {v : Nat} (h : uuidParse s = some v) :
    (uuidText .lower v).chars = s ↔ s.length = 36 ∧ s.map lowerCase = s := by
  by_cases len : s.length = 36
  · rw [uuidText_of_parse len h, and_iff_right len]
  · refine iff_of_false (fun same => len ?_) fun both => len both.1
    rw [← same, uuidText_length]

-- TOUUID and FROMUUID, path by path (R202, R203).

section
variable {s : State}

theorem exec_touuid_of_malformed (h : wellFormedText s.reqStr = false) :
    exec .touuid s = .next (s.finish s.msr Draws.nothing (Response.code .invalidFormat)) :=
  if_neg (ne_true_of_eq_false h)

theorem exec_touuid_of_fits (h : wellFormedText s.reqStr = true) (fits : b32dec s.reqStr < 2 ^ 128) :
    exec .touuid s = .next (s.finish s.msr Draws.nothing (Response.text (uuidText .lower (b32dec s.reqStr)))) :=
  (if_pos h).trans (if_neg (Nat.not_le.mpr fits))

theorem exec_fromuuid_of_none (h : uuidParse s.reqStr = none) :
    exec .fromuuid s = .next (s.finish s.msr Draws.nothing (Response.code .invalidUuid)) := by
  rw [exec, execFromuuid, h]
  rfl

theorem exec_fromuuid_of_some {v : Nat} (h : uuidParse s.reqStr = some v) :
    exec .fromuuid s = .next (s.finish s.msr Draws.nothing (Response.text (b32enc v))) := by
  rw [exec, execFromuuid, h]
  rfl

section
variable {t : State} {r : Response} {w : Text}

/-- A string that TOUUID writes is the text of its operand's value. -/
theorem exec_touuid_str (h : exec .touuid s = .next t) (hr : t.lastRsp = some r) (hw : r.str = some w) :
    wellFormedText s.reqStr = true ∧ b32dec s.reqStr < 2 ^ 128 ∧ w = uuidText .lower (b32dec s.reqStr) := by
  cases ok : wellFormedText s.reqStr with
  | false =>
    cases (exec_touuid_of_malformed ok).symm.trans h
    cases hr
    cases hw
  | true =>
    rcases lt_or_ge (b32dec s.reqStr) (2 ^ 128) with fits | big
    · cases (exec_touuid_of_fits ok fits).symm.trans h
      cases hr
      cases hw
      exact ⟨rfl, fits, rfl⟩
    · cases (exec_touuid_of_overflow ok big).symm.trans h
      cases hr
      cases hw

/-- A string that FROMUUID writes encodes what its operand parses to. -/
theorem exec_fromuuid_str (h : exec .fromuuid s = .next t) (hr : t.lastRsp = some r) (hw : r.str = some w) :
    ∃ v, uuidParse s.reqStr = some v ∧ w = b32enc v := by
  cases parse : uuidParse s.reqStr with
  | none =>
    cases (exec_fromuuid_of_none parse).symm.trans h
    cases hr
    cases hw
  | some v =>
    cases (exec_fromuuid_of_some parse).symm.trans h
    cases hr
    cases hw
    exact ⟨v, rfl, rfl⟩

end
end

-- The statements.

/-- Settles O49: each command's string decodes to the value of its operand, and the other command writes that value
again; a 36-character operand comes back in lower case. -/
theorem uuidRoundTrip : Obligations.UuidRoundTrip := by
  refine ⟨fun s t u r w h hr hw hu => ?_, fun s t u r w h hr hw hu => ?_⟩
  · obtain ⟨ok, fits, rfl⟩ := exec_touuid_str h hr hw
    obtain ⟨len, valid⟩ := (wellFormedText_iff _).mp ok
    have parse := uuidParse_uuidText fits
    have back := exec_fromuuid_of_some (s := u) (by rw [State.reqStr, hu, parse])
    exact ⟨parse, _, b32enc_b32dec len valid, back⟩
  · obtain ⟨v, parse, rfl⟩ := exec_fromuuid_str h hr hw
    have small := uuidParse_lt parse
    have value : b32dec (b32enc v).chars = v := b32dec_b32enc (small.trans (by decide))
    have operand : u.reqStr = (b32enc v).chars := congrArg Text.chars hu
    have back := exec_touuid_of_fits (s := u) (by rw [operand]; exact (b32enc_canonical v).wellFormed)
      (by rwa [operand, value])
    rw [operand, value] at back
    rw [value]
    exact ⟨parse, BitVec.ofNatLT v small, uuidText .lower v, rfl, uuidText_shows rfl, back,
      uuidText_eq_iff_of_parse parse⟩

/-- Settles O47: the first digit tells whether the value is below 2^128, and then its hex digits are what is written. -/
theorem touuidWritesUuidText : Obligations.TouuidWritesUuidText := by
  refine ⟨by decide, fun s => ⟨exec_touuid_of_malformed, fun ok first => ?_, fun ok first => ?_⟩⟩ <;>
    obtain ⟨len, -⟩ := (wellFormedText_iff _).mp ok
  · exact exec_touuid_of_overflow ok ((first_digit len).mp first)
  · have fits : b32dec s.reqStr < 2 ^ 128 := Nat.not_le.mp ((first_digit len).not.mp (Nat.not_le.mpr first))
    exact ⟨BitVec.ofNatLT _ fits, _, len ▸ b32dec_eq_digitSum _, uuidText_shows rfl, exec_touuid_of_fits ok fits⟩

/-- Settles O48: the digits of either shape are the characters other than hyphens. -/
theorem fromuuidReadsUuidText : Obligations.FromuuidReadsUuidText := by
  refine ⟨by decide, fun s => ⟨fun h => exec_fromuuid_of_none (uuidParse_eq_none h), fun h => ?_⟩⟩
  obtain ⟨parse, len, -⟩ := uuidParse_of_shaped h
  have small := uuidParse_lt parse
  refine ⟨BitVec.ofNatLT _ small, _, ?_, b32enc_shows ?_, exec_fromuuid_of_some parse⟩
  · rw [BitVec.toNat_ofNatLT, hexNumber_eq_sum, len]
  · rw [BitVec.toNat_setWidth_of_le (by decide), BitVec.toNat_ofNatLT]

/-- Settles O56: the response depends only on what the string parses to, and parsing does not see letter case. -/
theorem fromuuidIgnoresCase : Obligations.FromuuidIgnoresCase := by
  intro s t ht
  have same : uuidParse t.reqStr = uuidParse s.reqStr := by rw [ht, uuidParse_map_lowerCase]
  cases parse : uuidParse s.reqStr with
  | none => exact ⟨_, _, _, exec_fromuuid_of_none parse, exec_fromuuid_of_none (same.trans parse), rfl, rfl⟩
  | some v => exact ⟨_, _, _, exec_fromuuid_of_some parse, exec_fromuuid_of_some (same.trans parse), rfl, rfl⟩

end Sys2Proof.Machine
end

section
/-! PROOFS. Family 60_exceptions.md. First how a command ends when it fails, and what its end depends on; then the table of
R222, row by row, on the commands' paths; then the seven statements. -/

namespace Sys2Proof.Machine

-- How a request ends (R224, R233).

/-- Only MONO and GENM write `MSR` (R21, R72). -/
theorem encode_of_writesMsr {i : Instr} (h : writesMsr i = true) : encode i = 0x40#8 ∨ encode i = 0x51#8 := by
  cases i with
  | mono => exact .inl rfl
  | genm => exact .inr rfl
  | _ => cases h

/-- A request ends with one exchange, and on a new register value only in a successful MONO or GENM. -/
theorem runCommand_frame (s : State) :
    ∃ m d r, runCommand s = .next (s.finish m d r)
      ∧ (m ≠ s.msr → r.err = 0 ∧ (s.commandWord = 0x40#8 ∨ s.commandWord = 0x51#8)) := by
  cases hd : s.decoded with
  | illegal why => exact ⟨_, _, _, runCommand_of_illegal hd, fun moved => absurd rfl moved⟩
  | instr i =>
    rw [runCommand, hd, decode_hasUuid_eq_instr.mp hd]
    obtain ⟨m, d, r, he, -⟩ := exec_finishes i s
    obtain ⟨-, -, d', r', htrace, hmsr⟩ := commandFrame i s _ he
    cases htrace
    exact ⟨m, d, r, he, fun moved => ⟨(hmsr moved).2, encode_of_writesMsr (hmsr moved).1⟩⟩

/-- A request that fails ends on the old register, with its code and without entropy. -/
theorem runCommand_failed {s t : State} {r : Response} (h : runCommand s = .next t) (hr : t.lastRsp = some r)
    (failed : r.err ≠ 0) :
    ∃ k clock, k ≠ ErrKind.none ∧ t = s.finish s.msr { now := clock, ent := none } (Response.code k) := by
  cases hd : s.decoded with
  | illegal why =>
    cases (runCommand_of_illegal hd).symm.trans h
    exact ⟨.illegalCommand, none, nofun, rfl⟩
  | instr i =>
    rw [runCommand, hd] at h
    rcases exec_outcome h with failure | ⟨m, d, r', ok, rfl⟩
    · exact failure
    · cases hr
      exact absurd ok failed

-- What the end of a command depends on (R225).

/-- Two results, each of a command run in its own state, end alike: one `MSR`, the same draws, one response. -/
def EndAlike (s t : State) (a b : Result) : Prop :=
  ∃ m d r, a = .next (s.finish m d r) ∧ b = .next (t.finish m d r)

section
variable {s t : State}

theorem EndAlike.succeed {m : Msr} {d : Draws} {r : Response} :
    EndAlike s t (Machine.succeed s m d r) (Machine.succeed t m d r) :=
  ⟨m, d, r, rfl, rfl⟩

theorem EndAlike.raise {k : ErrKind} {clock : Option Millis} (msr : s.msr = t.msr) :
    EndAlike s t (Machine.raise s k clock) (Machine.raise t k clock) :=
  ⟨s.msr, _, _, rfl, by rw [msr]; rfl⟩

theorem EndAlike.ite {p : Prop} [Decidable p] {a a' b b' : Result} (ha : EndAlike s t a a') (hb : EndAlike s t b b') :
    EndAlike s t (if p then a else b) (if p then a' else b') := by
  split
  · exact ha
  · exact hb

/-- A command looks at the request with its draws and at `MSR`, and at nothing else of the state. -/
theorem exec_endAlike (i : Instr) (msr : s.msr = t.msr) (cur : s.cur = t.cur) :
    EndAlike s t (exec i s) (exec i t) := by
  obtain ⟨m, o, tr, ag⟩ := s
  obtain ⟨m', o', tr', ag'⟩ := t
  cases msr
  cases cur
  cases i with
  | unpack | chk | gen | isvalid => exact .succeed
  | enc | gents => exact .ite (.raise rfl) .succeed
  | dec | xts | xrnd | norm => exact .ite .succeed (.raise rfl)
  | pack => exact .ite (.raise rfl) (.ite (.raise rfl) .succeed)
  | touuid => exact .ite (.ite (.raise rfl) .succeed) (.raise rfl)
  | mono =>
    cases outcome : monoStep Config.monoOvf m o.req.ts.toInt o.ent with
    | failed k => exact ⟨_, _, _, exec_mono_failed outcome, exec_mono_failed outcome⟩
    | moved n used => exact ⟨_, _, _, exec_mono_moved outcome, exec_mono_moved outcome⟩
  | genm =>
    cases outcome : monoStep Config.monoOvf m (o.now.toNat : Int) o.ent with
    | failed k => exact ⟨_, _, _, exec_genm_failed outcome, exec_genm_failed outcome⟩
    | moved n used => exact ⟨_, _, _, exec_genm_moved outcome, exec_genm_moved outcome⟩
  | fromuuid =>
    cases parse : uuidParse o.req.str.chars with
    | none => exact ⟨_, _, _, exec_fromuuid_of_none parse, exec_fromuuid_of_none parse⟩
    | some v => exact ⟨_, _, _, exec_fromuuid_of_some parse, exec_fromuuid_of_some parse⟩

theorem runCommand_endAlike (msr : s.msr = t.msr) (cur : s.cur = t.cur) :
    EndAlike s t (runCommand s) (runCommand t) := by
  have decoded : s.decoded = t.decoded := by rw [State.decoded, State.commandWord, cur]; rfl
  rw [runCommand, runCommand, decoded]
  cases t.decoded with
  | instr i => exact exec_endAlike i msr cur
  | illegal why => exact .raise msr

end

-- The table of failures (R221, R222).

/-- The rows of R221's table, in the order of their codes. -/
def tabledKinds : List ErrKind :=
  [.none, .invalidFormat, .invalidCharacter, .valueOverflow, .invalidTimestamp, .invalidUuid, .monotonicOverflow,
    .timestampOutOfRange, .randomOutOfRange, .illegalCommand]

theorem tabledKinds_at_code (k : ErrKind) : tabledKinds[k.code.toNat]? = some k := by
  cases k <;> rfl

theorem ErrKind.code_injective : Function.Injective ErrKind.code := fun a b same => by
  have row := tabledKinds_at_code a
  rwa [same, tabledKinds_at_code b, Option.some.injEq, eq_comm] at row

/-- The table of R222 gives every command a kind, or none. -/
theorem exists_failsWith (s : State) (i : Instr) : ∃ k, FailsWith s i k := by
  cases i with
  | fromuuid =>
    by_cases shaped : UuidShaped s.reqStr
    · exact ⟨_, .inl ⟨shaped, rfl⟩⟩
    · exact ⟨_, .inr ⟨shaped, rfl⟩⟩
  | _ => exact ⟨_, rfl⟩

/-- The command `i` completes in `s` with the code of the kind `k`. -/
def CompletesWith (s : State) (i : Instr) (k : ErrKind) : Prop :=
  ∃ m d r, exec i s = .next (s.finish m d r) ∧ r.err = k.code

section
variable {s : State} {i : Instr} {k : ErrKind}

theorem CompletesWith.of_success {m : Msr} {d : Draws} {r : Response} (h : exec i s = .next (s.finish m d r))
    (ok : r.err = 0) : CompletesWith s i .none :=
  ⟨m, d, r, h, ok⟩

theorem CompletesWith.of_failure {d : Draws} (h : exec i s = .next (s.finish s.msr d (Response.code k))) :
    CompletesWith s i k :=
  ⟨s.msr, d, _, h, rfl⟩

/-- Where the table asks a condition, it is enough that the command completes as tabled on both of its sides. -/
theorem CompletesWith.ite {p : Prop} [Decidable p] {a b : ErrKind} (pos : p → CompletesWith s i a)
    (neg : ¬ p → CompletesWith s i b) : CompletesWith s i (if p then a else b) := by
  split
  · exact pos ‹_›
  · exact neg ‹_›

theorem pack_completesAsTabled : CompletesWith s .pack
    (if s.reqTs < 0 ∨ 2 ^ 48 - 1 < s.reqTs then .timestampOutOfRange
      else if 2 ^ 80 - 1 < s.reqRnd then .randomOutOfRange else .none) := by
  refine .ite (fun out => .of_failure (exec_pack_of_ts_out out)) fun inRange => ?_
  obtain ⟨low, high⟩ : 0 ≤ s.reqTs ∧ s.reqTs ≤ 2 ^ 48 - 1 := by omega
  exact .ite (fun out => .of_failure (exec_pack_of_rnd_out low high out))
    fun fits => .of_success (exec_pack_of_fits low high (Nat.not_lt.mp fits)) rfl

theorem monoFailure_eq (now : Int) (m : Msr) :
    monoFailure now m = if 2 ^ 48 - 1 < now then .timestampOutOfRange
      else if now ≤ m.ts.toNat ∧ m.rnd.toNat = 2 ^ 80 - 1 then .monotonicOverflow else .none :=
  rfl

theorem mono_completesAsTabled : CompletesWith s .mono (monoFailure s.reqTs s.msr) := by
  have rnd := s.msr.rnd.isLt
  rw [monoFailure_eq]
  refine .ite (fun out => .of_failure (exec_mono_outOfRange out)) fun inRange => ?_
  refine .ite (fun ⟨notLater, full⟩ => .of_failure (exec_mono_exhausted notLater full)) fun moves => ?_
  rcases lt_or_ge (s.msr.ts.toNat : Int) s.reqTs with later | notLater
  · exact .of_success (exec_mono_newPeriod later (by omega)) rfl
  · exact .of_success (exec_mono_increment notLater (by omega)) rfl

theorem genm_completesAsTabled : CompletesWith s .genm
    (if s.nowValue ≤ s.msr.ts.toNat ∧ s.msr.rnd.toNat = 2 ^ 80 - 1 then .monotonicOverflow else .none) := by
  have rnd := s.msr.rnd.isLt
  refine .ite (fun ⟨notLater, full⟩ => .of_failure (exec_genm_exhausted notLater full)) fun moves => ?_
  rcases lt_or_ge s.msr.ts.toNat s.nowValue with later | notLater
  · obtain ⟨t, -, he⟩ := exec_genm_newPeriod later
    exact .of_success he rfl
  · obtain ⟨t, -, he⟩ := exec_genm_increment notLater (by omega)
    exact .of_success he rfl

theorem gents_completesAsTabled : CompletesWith s .gents
    (if s.reqTs < 0 ∨ 2 ^ 48 - 1 < s.reqTs then .invalidTimestamp else .none) := by
  refine .ite (fun out => .of_failure (exec_gents_of_outOfRange out)) fun inRange => ?_
  exact .of_success (exec_gents_of_reqTs_eq (s.reqTs_eq_of_inRange (by omega) (by omega))) rfl

theorem touuid_completesAsTabled : CompletesWith s .touuid
    (if wellFormedText s.reqStr then (if 2 ^ 128 ≤ b32dec s.reqStr then .valueOverflow else .none)
      else .invalidFormat) :=
  .ite
    (fun ok => .ite (fun big => .of_failure (exec_touuid_of_overflow ok big))
      fun fits => .of_success (exec_touuid_of_fits ok (Nat.not_le.mp fits)) rfl)
    fun malformed => .of_failure (exec_touuid_of_malformed (Bool.eq_false_of_not_eq_true malformed))

/-- A command that needs a well-formed string and nothing else (R174, R175, R176). -/
theorem extract_completesAsTabled {r : Response} (hi : i = .xts ∨ i = .xrnd ∨ i = .norm)
    (success : wellFormedText s.reqStr = true → exec i s = .next (s.finish s.msr Draws.nothing r)) (ok : r.err = 0) :
    CompletesWith s i (if wellFormedText s.reqStr then .none else .invalidFormat) :=
  .ite (fun well => .of_success (success well) ok)
    fun malformed => .of_failure (exec_of_malformed hi (Bool.eq_false_of_not_eq_true malformed))

theorem completesWith_of_failsWith (h : FailsWith s i k) : CompletesWith s i k := by
  cases i with
  | enc =>
    exact h ▸ .ite (fun big => .of_failure (exec_enc_of_overflow big))
      fun fits => .of_success (exec_enc_of_fits (Nat.not_le.mp fits)) rfl
  | dec =>
    exact h ▸ .ite (fun bad => .of_failure (exec_dec_of_invalid bad))
      fun good => .of_success (exec_dec_of_valid (by simpa using good)) rfl
  | pack => exact h ▸ pack_completesAsTabled
  | unpack => exact h ▸ .of_success exec_unpack rfl
  | chk => exact h ▸ .of_success (exec_chk s) rfl
  | isvalid => exact h ▸ .of_success ((exec_isvalid_eq_exec_chk s).trans (exec_chk s)) rfl
  | mono => exact h ▸ mono_completesAsTabled
  | gen => exact h ▸ .of_success exec_gen rfl
  | genm => exact h ▸ genm_completesAsTabled
  | gents => exact h ▸ gents_completesAsTabled
  | xts => exact h ▸ extract_completesAsTabled (by decide) exec_xts_of_wellFormed rfl
  | xrnd => exact h ▸ extract_completesAsTabled (by decide) exec_xrnd_of_wellFormed rfl
  | norm => exact h ▸ extract_completesAsTabled (by decide) exec_norm_of_wellFormed rfl
  | touuid => exact h ▸ touuid_completesAsTabled
  | fromuuid =>
    rcases h with ⟨shaped, rfl⟩ | ⟨notShaped, rfl⟩
    · obtain ⟨parse, -⟩ := uuidParse_of_shaped shaped
      exact .of_success (exec_fromuuid_of_some parse) rfl
    · exact .of_failure (exec_fromuuid_of_none (uuidParse_eq_none notShaped))

end

-- The statements.

/-- Settles O4: the decoder selects the command that the accepted request runs. -/
theorem stepRunsDecodedInstruction : Obligations.StepRunsDecodedInstruction :=
  fun _ _ _ _ ha hi => step_of_instr ha hi

/-- Settles O8: with an empty agenda the step is the idle branch. -/
theorem idleBlockKeepsItsState : Obligations.IdleBlockKeepsItsState := by
  intro s idle
  rw [step, idle]

/-- Settles O9: the idle and the reset branch answer at once, and a request ends with its own exchange, which leaves `MSR`
alone but for a successful MONO or GENM. -/
theorem stepAnswersOnceAndIsTotal : Obligations.StepAnswersOnceAndIsTotal := by
  refine ⟨fun s => ?_, fun s o rest ha => ?_⟩
  · cases ha : s.agenda with
    | nil => exact ⟨s, idleBlockKeepsItsState s ha⟩
    | cons move rest =>
      cases move with
      | reset =>
        rw [step, ha]
        exact ⟨_, rfl⟩
      | present o =>
        obtain ⟨m, d, r, answered⟩ := runCommand_finishes (s.accept o rest)
        exact ⟨_, (step_present ha).trans answered⟩
  · obtain ⟨m, d, r, answered, moved⟩ := runCommand_frame (s.accept o rest)
    exact ⟨m, d, r, (step_present ha).trans answered, moved⟩

/-- Settles O50: a code gives back the row of the table that it is the number of, so no two kinds share one. -/
theorem failureCodesAsTabled : Obligations.FailureCodesAsTabled :=
  ⟨rfl, rfl, rfl, rfl, rfl, rfl, rfl, rfl, rfl, rfl, fun _ _ same => ErrKind.code_injective same⟩

/-- Settles O51: each row's conditions are the paths of its command; a word that no command encodes to is illegal. -/
theorem failureTable : Obligations.FailureTable := by
  refine ⟨fun i s => ⟨exists_failsWith s i, fun k h => ?_⟩, fun s hw => ?_⟩
  · obtain ⟨m, d, r, he, code⟩ := completesWith_of_failsWith h
    exact ⟨_, r, he, rfl, code⟩
  · obtain ⟨why, illegal⟩ := decode_illegal_of_forall_ne hw Config.hasUuid
    exact ⟨_, _, runCommand_of_illegal illegal, rfl, rfl⟩

/-- Settles O52: a request ends either by `raise`, which does just this, or with code 0. -/
theorem failureChangesNothingElse : Obligations.FailureChangesNothingElse :=
  fun _ _ _ h hr failed => runCommand_failed h hr failed

/-- Settles O53: a failure leaves `MSR` as it was, and the next request reads nothing else that the failure touched. -/
theorem failedCommandLeavesNoTrace : Obligations.FailedCommandLeavesNoTrace := by
  intro s t o next rest r ha h hr failed
  rw [step_present ha] at h
  obtain ⟨k, clock, -, rfl⟩ := runCommand_failed h hr failed
  obtain ⟨m, d, r', hu, hv⟩ := runCommand_endAlike
    (s := (State.finish (s.accept o (.present next :: rest)) s.msr { now := clock, ent := none }
      (Response.code k)).accept next rest)
    (t := { s with agenda := .present next :: rest }.accept next rest) rfl rfl
  exact ⟨_, _, (step_present rfl).trans hu, (step_present rfl).trans hv, rfl, rfl, rfl, rfl⟩

end Sys2Proof.Machine
end

section
/-! PROOFS. Family 70_reset_and_hazards.md: the step's branch for a reset, then the statement about it. -/

namespace Sys2Proof.Machine

/-- R250: one step takes the machine to the state after reset, from whatever state it was in. -/
theorem step_reset {s : State} {rest : List Move} (h : s.agenda = .reset :: rest) :
    step s = .next (State.afterReset rest) := by
  rw [step, h]

/-- Settles O7: the step on a reset ends in the state after reset, whose register, record and agenda are as stated. -/
theorem resetClearsRegisterAndRun : Obligations.ResetClearsRegisterAndRun :=
  fun _ rest ha => ⟨_, step_reset ha, State.afterReset_msr rest, State.afterReset_trace rest,
    State.afterReset_agenda rest⟩

end Sys2Proof.Machine
end

section
/-! PROOFS. The statements on the model's own tables and on `withFetchWord`. First the word that `withFetchWord` presents and
the number form of the decoder; then the alphabet by code; then the hex tables by code. -/

namespace Sys2Proof

theorem ofNat_mod_two_pow (n w : Nat) : BitVec.ofNat n (w % 2 ^ n) = BitVec.ofNat n w :=
  BitVec.eq_of_toNat_eq (by simp)

/-- Both forms of the decoder read a word alike (R72, R74). -/
theorem decodeTableWord_eq_some {w : Nat} {i : Instr} :
    decodeTableWord 8 w = some i ↔ decode Config.hasUuid (BitVec.ofNat 8 w) = .instr i := by
  rw [decodeTableWord, if_pos (Nat.mod_lt w (by decide)), ofNat_mod_two_pow]
  cases decode Config.hasUuid (BitVec.ofNat 8 w) with
  | instr j => simp
  | illegal why => simp

namespace Machine

theorem State.withFetchWord_agenda (s : State) (w : Nat) :
    (s.withFetchWord 8 w).agenda
      = .present { s.cur with req := { s.cur.req with cmd := BitVec.ofNat 8 w } } :: s.agenda := by
  rw [State.withFetchWord, ofNat_mod_two_pow, State.withNextWord]

/-- Settles O5: the placed word is the next request, and accepting it takes it off the agenda again. -/
theorem fetchWordRunsInstruction : Obligations.FetchWordRunsInstruction :=
  fun s w _ h => step_of_instr (s.withFetchWord_agenda w) (decodeTableWord_eq_some.mp h)

-- The alphabet by code (R76, R77).

theorem toNat_fold (c : Byte) :
    (fold c).toNat = if 0x61 ≤ c.toNat ∧ c.toNat ≤ 0x7A then c.toNat - 0x20 else c.toNat := by
  rw [fold, apply_ite BitVec.toNat]
  exact ite_congr rfl (fun lower => BitVec.toNat_sub_of_le (Nat.le_trans (by decide) lower.1)) fun _ => rfl

/-- The symbols are the decimal digits and the upper-case letters other than I, L, O and U. -/
theorem mem_alphabet_iff : ∀ c : Byte, c ∈ alphabet ↔
    (0x30 ≤ c.toNat ∧ c.toNat ≤ 0x39)
    ∨ (0x41 ≤ c.toNat ∧ c.toNat ≤ 0x5A ∧ c.toNat ≠ 0x49 ∧ c.toNat ≠ 0x4C ∧ c.toNat ≠ 0x4F ∧ c.toNat ≠ 0x55) := by
  decide

/-- The bytes of the alphabet are its 32 symbols and the lower-case forms of the 22 letters among them. -/
theorem filter_inAlpha : ((List.range 256).filter fun n => inAlpha (BitVec.ofNat 8 n))
    = alphabet.map (·.toNat) ++ (alphabet.drop 10).map (·.toNat + 0x20) := by
  decide

/-- Settles O14: a byte is in the alphabet when its folded form is a symbol, and folding moves the lower-case codes down to
the upper-case ones. -/
theorem alphabetIsFiftyFourBytes : Obligations.AlphabetIsFiftyFourBytes := by
  refine ⟨fun c => ?_, congrArg List.length filter_inAlpha, fun c hc => ⟨digit_lt c, alpha_digit hc⟩⟩
  rw [inAlpha_iff_fold_mem, mem_alphabet_iff, toNat_fold]
  split
  case isTrue lower => omega
  case isFalse other => omega

-- The hex tables by code (R81).

theorem isDecimal_iff {c : Byte} : isDecimal c = true ↔ 0x30 ≤ c.toNat ∧ c.toNat ≤ 0x39 := by
  simp [isDecimal, BitVec.le_def]

theorem isHexUpper_iff {c : Byte} : isHexUpper c = true ↔ 0x41 ≤ c.toNat ∧ c.toNat ≤ 0x46 := by
  simp [isHexUpper, BitVec.le_def]

theorem isHexLower_iff {c : Byte} : isHexLower c = true ↔ 0x61 ≤ c.toNat ∧ c.toNat ≤ 0x66 := by
  simp [isHexLower, BitVec.le_def]

theorem isHex_iff {c : Byte} : isHex c = true ↔
    (0x30 ≤ c.toNat ∧ c.toNat ≤ 0x39) ∨ (0x41 ≤ c.toNat ∧ c.toNat ≤ 0x46) ∨ (0x61 ≤ c.toNat ∧ c.toNat ≤ 0x66) := by
  rw [isHex, Bool.or_eq_true, Bool.or_eq_true, isDecimal_iff, isHexUpper_iff, isHexLower_iff, or_assoc]

/-- The hex bytes are ten digits, six upper-case letters and six lower-case ones. -/
theorem filter_isHex : ((List.range 256).filter fun n => isHex (BitVec.ofNat 8 n))
    = List.range' 0x30 10 ++ List.range' 0x41 6 ++ List.range' 0x61 6 := by
  decide

theorem hexVal_of_decimal {c : Byte} (h : 0x30 ≤ c.toNat ∧ c.toNat ≤ 0x39) : hexVal c = c.toNat - 0x30 := by
  rw [hexVal, if_pos (isDecimal_iff.mpr h)]

theorem hexVal_of_upper {c : Byte} (h : 0x41 ≤ c.toNat ∧ c.toNat ≤ 0x46) : hexVal c = c.toNat - 0x41 + 10 := by
  have notDecimal : ¬ isDecimal c = true := by rw [isDecimal_iff]; omega
  rw [hexVal, if_neg notDecimal, if_pos (isHexUpper_iff.mpr h)]

theorem hexVal_of_lower {c : Byte} (h : 0x61 ≤ c.toNat ∧ c.toNat ≤ 0x66) : hexVal c = c.toNat - 0x61 + 10 := by
  have notDecimal : ¬ isDecimal c = true := by rw [isDecimal_iff]; omega
  have notUpper : ¬ isHexUpper c = true := by rw [isHexUpper_iff]; omega
  rw [hexVal, if_neg notDecimal, if_neg notUpper]

/-- Settles O55: the three ranges of codes are disjoint, so each has its own branch of `hexVal`; the sixteen digits that are
written are compared one by one. -/
theorem hexTablesAsTabled : Obligations.HexTablesAsTabled :=
  ⟨fun _ => isHex_iff, congrArg List.length filter_isHex,
    fun _ => ⟨hexVal_of_decimal, hexVal_of_upper, hexVal_of_lower⟩, by decide⟩

end Machine
end Sys2Proof
end
